-- ==== Sys2Proof/Word.lean ====
section
/-! DEFINITION. The word types of the core and the plain data of its display (R9, R21, R23, R278). -/

namespace Sys2Proof

/-- One byte: a `V` register, a timer, a memory cell, an immediate `kk` (R21, R29, R60). -/
abbrev Byte := BitVec 8

/-- One 16-bit word: `I`, `PC`, a return address, an instruction word (R23, R24, R27, R80). -/
abbrev Word := BitVec 16

/-- A 12-bit address field `nnn` (R81). -/
abbrev Addr12 := BitVec 12

/-- The index of a general register `V0`..`VF` (R21, R82: all 16 values are legal). -/
abbrev Reg := Fin 16

/-- The 64 x 32 pixels of the reference display, `bitmap[px][py]` (R278): `true` is on. -/
abbrev Bitmap := Vector (Vector Bool 32) 64

/-- Every pixel off. -/
def Bitmap.blank : Bitmap := Vector.replicate 64 (Vector.replicate 32 false)

end Sys2Proof
end

