-- ==== Sys2Proof/Config.lean ====
section
/-! DEFINITION. What the spec leaves to the implementation (R8): the names of the settings and the
free constants. A constant without a body is free: nothing in Lean can prove a value of it. The settings
that the spec itself fixes (`ALLOW_ODD_PC`, `F_DECODE`) are in Decode.lean and Machine/Params.lean. -/

namespace Sys2Proof

/-- `F_DECODE` (R8, R88): how deep the decoder reads the low byte of family F. -/
inductive FDecode where
  | exact       -- only the nine low bytes of R88 decode
  | nibbleTree  -- the second level keys on w[7:4] alone outside groups 0 and 1
  deriving DecidableEq, Repr, Inhabited

/-- `DRAW_XY_SAMPLING` (R8, R236): when DRW reads `Vx` and `Vy`. -/
inductive DrawSampling where
  | latched  -- once, before VF is cleared
  | live     -- again for each set bit
  deriving DecidableEq, Repr, Inhabited

/-- `RESET_CLEARS_REGS` (R8, R301): what `reset()` does to V, I, SP, the stack, DT and ST. -/
inductive ResetRegs where
  | retain
  | zero
  deriving DecidableEq, Repr, Inhabited

/-- The byte the `k`-th call of `Random()` returns (R281, U5): any value, under no law.
UNVERIFIED, safe: log 6. -/
opaque Config.randomByte : Nat → Byte

/-- `DISPLAY_OFF_FIELD` (R278, U10): the display's effect on the bitmap and its answer for a
`set_pixel(px, py)` outside the 64 x 32 field. UNVERIFIED, safe: log 7. -/
opaque Config.displayOffField : Bitmap → Nat → Nat → Bitmap × Bool

/-- `DRAW_XY_SAMPLING` (R236, U14). UNVERIFIED, safe: log 8. -/
opaque Config.drawXySampling : DrawSampling

/-- `RESET_CLEARS_REGS` (R301, U11). UNVERIFIED, safe: log 9. -/
opaque Config.resetClearsRegs : ResetRegs

/-- `RESET_CLEARS_KEY_WAIT` (R301, U12). UNVERIFIED, safe: log 10. -/
opaque Config.resetClearsKeyWait : Bool

end Sys2Proof
end

