-- ==== Sys2Proof/Syntax.lean ====
section
/-! DEFINITION. The 35 instructions (R91), one constructor per row of spec/opcode_table.json, in the
table's order. The bits a decoder ignores (R85, R87, R89) are no operands. -/

namespace Sys2Proof

/-- The 35 leaves of R91. -/
inductive Instr where
  | sys (nnn : Addr12)             -- 0nnn  SYS nnn
  | jp (nnn : Addr12)              -- 1nnn  JP nnn
  | jpV0 (nnn : Addr12)            -- Bnnn  JP V0, nnn
  | call (nnn : Addr12)            -- 2nnn  CALL nnn
  | ret                            -- 00EE  RET
  | seImm (x : Reg) (kk : Byte)    -- 3xkk  SE Vx, kk
  | sneImm (x : Reg) (kk : Byte)   -- 4xkk  SNE Vx, kk
  | seReg (x y : Reg)              -- 5xy_  SE Vx, Vy
  | sneReg (x y : Reg)             -- 9xy_  SNE Vx, Vy
  | ldImm (x : Reg) (kk : Byte)    -- 6xkk  LD Vx, kk
  | ldReg (x y : Reg)              -- 8xy0  LD Vx, Vy
  | ldI (nnn : Addr12)             -- Annn  LD I, nnn
  | addImm (x : Reg) (kk : Byte)   -- 7xkk  ADD Vx, kk
  | addReg (x y : Reg)             -- 8xy4  ADD Vx, Vy
  | sub (x y : Reg)                -- 8xy5  SUB Vx, Vy
  | subn (x y : Reg)               -- 8xy7  SUBN Vx, Vy
  | andReg (x y : Reg)             -- 8xy2  AND Vx, Vy
  | orReg (x y : Reg)              -- 8xy1  OR Vx, Vy
  | xorReg (x y : Reg)             -- 8xy3  XOR Vx, Vy
  | addI (x : Reg)                 -- Fx1E  ADD I, Vx
  | shr (x y : Reg)                -- 8xy6  SHR Vx, Vy
  | shl (x y : Reg)                -- 8xyE  SHL Vx, Vy
  | rnd (x : Reg) (kk : Byte)      -- Cxkk  RND Vx, kk
  | bcd (x : Reg)                  -- Fx33  LD B, Vx
  | storeRegs (x : Reg)            -- Fx55  LD [I], Vx
  | loadRegs (x : Reg)             -- Fx65  LD Vx, [I]
  | ldFont (x : Reg)               -- Fx29  LD F, Vx
  | readDt (x : Reg)               -- Fx07  LD Vx, DT
  | writeDt (x : Reg)              -- Fx15  LD DT, Vx
  | writeSt (x : Reg)              -- Fx18  LD ST, Vx
  | skp (x : Reg)                  -- Ex__, w[0] = 0  SKP Vx
  | sknp (x : Reg)                 -- Ex__, w[0] = 1  SKNP Vx
  | waitKey (x : Reg)              -- Fx0A  LD Vx, K
  | drw (x y : Reg) (n : BitVec 4) -- Dxyn  DRW Vx, Vy, n
  | cls                            -- 00E0  CLS
  deriving DecidableEq, Repr

end Sys2Proof
end

