-- ==== Sys2Proof/WellFormed.lean ====
section
/-! DEFINITION. Which instructions the 16-bit words can spell. Every operand is bounded by its type, so
one check is left: a SYS whose low byte is 0xE0 or 0xEE is the word of CLS or RET (R85). -/

namespace Sys2Proof

/-- `nnn` as an operand of SYS: its low byte is neither that of CLS nor that of RET (R85, R120). -/
def sysAddressOk (nnn : Addr12) : Bool :=
  nnn.extractLsb' 0 8 != 0xE0#8 && nnn.extractLsb' 0 8 != 0xEE#8

/-- Well-formed: the instruction has a word of its own. -/
def Instr.wellFormed : Instr → Bool
  | .sys nnn => sysAddressOk nnn
  | .jp _ | .jpV0 _ | .call _ | .ret | .seImm _ _ | .sneImm _ _ | .seReg _ _ | .sneReg _ _
  | .ldImm _ _ | .ldReg _ _ | .ldI _ | .addImm _ _ | .addReg _ _ | .sub _ _ | .subn _ _
  | .andReg _ _ | .orReg _ _ | .xorReg _ _ | .addI _ | .shr _ _ | .shl _ _ | .rnd _ _
  | .bcd _ | .storeRegs _ | .loadRegs _ | .ldFont _ | .readDt _ | .writeDt _ | .writeSt _
  | .skp _ | .sknp _ | .waitKey _ | .drw _ _ _ | .cls => true

end Sys2Proof
end

