-- ==== Sys2Proof/Decode.lean ====
section
/-! DEFINITION. The decoder (R80-R90, R92), the encoder written from the same table (R91), and the
table's mask and match. Decoding reads the word and nothing else (R84). -/

namespace Sys2Proof

/-- Why bytes are no instruction. -/
inductive DecodeError where
  | truncated            -- fewer than two bytes (R80)
  | illegal (w : Word)   -- a word no leaf takes (R92)
  deriving DecidableEq, Repr

/-- `F_DECODE`, which the spec fixes as `exact` (R8, R88, D4). Log 13. -/
def fDecode : FDecode := .exact

/-! The fields of a word (R81). -/

/-- `w[15:12]`. -/
def fieldOp (w : Word) : BitVec 4 := w.extractLsb' 12 4

/-- `w[11:8]`, the first register index. -/
def fieldX (w : Word) : Reg := (w.extractLsb' 8 4).toFin

/-- `w[7:4]`, the second register index. -/
def fieldY (w : Word) : Reg := (w.extractLsb' 4 4).toFin

/-- `w[3:0]`. -/
def fieldN (w : Word) : BitVec 4 := w.extractLsb' 0 4

/-- `w[7:0]`. -/
def fieldKk (w : Word) : Byte := w.extractLsb' 0 8

/-- `w[11:0]`. -/
def fieldNnn (w : Word) : Addr12 := w.extractLsb' 0 12

/-! The decode tree. -/

/-- Family 0 keys on the low byte alone; `w[11:8]` is ignored for CLS and RET (R85, C8). -/
def decodeFamily0 (w : Word) : Except DecodeError Instr :=
  match fieldKk w with
  | 0xE0#8 => .ok .cls
  | 0xEE#8 => .ok .ret
  | _ => .ok (.sys (fieldNnn w))

/-- Family 8 keys on the low nibble; seven values select no leaf (R86, D3). -/
def decodeFamily8 (w : Word) : Except DecodeError Instr :=
  let x := fieldX w
  let y := fieldY w
  match fieldN w with
  | 0x0#4 => .ok (.ldReg x y)
  | 0x1#4 => .ok (.orReg x y)
  | 0x2#4 => .ok (.andReg x y)
  | 0x3#4 => .ok (.xorReg x y)
  | 0x4#4 => .ok (.addReg x y)
  | 0x5#4 => .ok (.sub x y)
  | 0x6#4 => .ok (.shr x y)
  | 0x7#4 => .ok (.subn x y)
  | 0xE#4 => .ok (.shl x y)
  | _ => .error (.illegal w)

/-- Family E keys on `w[0]` alone: even is SKP, odd is SKNP (R87, D42, D46). -/
def decodeFamilyE (w : Word) : Except DecodeError Instr :=
  if w.getLsbD 0 then .ok (.sknp (fieldX w)) else .ok (.skp (fieldX w))

/-- Family F under `F_DECODE = exact`: the nine low bytes of R88. -/
def decodeFamilyFExact (w : Word) : Except DecodeError Instr :=
  let x := fieldX w
  match fieldKk w with
  | 0x07#8 => .ok (.readDt x)
  | 0x0A#8 => .ok (.waitKey x)
  | 0x15#8 => .ok (.writeDt x)
  | 0x18#8 => .ok (.writeSt x)
  | 0x1E#8 => .ok (.addI x)
  | 0x29#8 => .ok (.ldFont x)
  | 0x33#8 => .ok (.bcd x)
  | 0x55#8 => .ok (.storeRegs x)
  | 0x65#8 => .ok (.loadRegs x)
  | _ => .error (.illegal w)

/-- Family F under the named alternative `F_DECODE = nibble_tree` (R88): the second level keys on
`w[7:4]`, and only groups 0 and 1 read `w[3:0]`. -/
def decodeFamilyFNibbleTree (w : Word) : Except DecodeError Instr :=
  let x := fieldX w
  match (w.extractLsb' 4 4 : BitVec 4) with
  | 0x0#4 =>
    match fieldN w with
    | 0x7#4 => .ok (.readDt x)
    | 0xA#4 => .ok (.waitKey x)
    | _ => .error (.illegal w)
  | 0x1#4 =>
    match fieldN w with
    | 0x5#4 => .ok (.writeDt x)
    | 0x8#4 => .ok (.writeSt x)
    | 0xE#4 => .ok (.addI x)
    | _ => .error (.illegal w)
  | 0x2#4 => .ok (.ldFont x)
  | 0x3#4 => .ok (.bcd x)
  | 0x5#4 => .ok (.storeRegs x)
  | 0x6#4 => .ok (.loadRegs x)
  | _ => .error (.illegal w)

/-- Family F under either setting of `F_DECODE` (R88). -/
def decodeFamilyF (f : FDecode) (w : Word) : Except DecodeError Instr :=
  match f with
  | .exact => decodeFamilyFExact w
  | .nibbleTree => decodeFamilyFNibbleTree w

/-- `Decode(w)` under a setting of `F_DECODE` (R84, R89): families 0, 8, E and F branch further, every
other top nibble is one leaf whatever the lower bits hold. -/
def decodeWith (f : FDecode) (w : Word) : Except DecodeError Instr :=
  match fieldOp w with
  | 0x0#4 => decodeFamily0 w
  | 0x1#4 => .ok (.jp (fieldNnn w))
  | 0x2#4 => .ok (.call (fieldNnn w))
  | 0x3#4 => .ok (.seImm (fieldX w) (fieldKk w))
  | 0x4#4 => .ok (.sneImm (fieldX w) (fieldKk w))
  | 0x5#4 => .ok (.seReg (fieldX w) (fieldY w))
  | 0x6#4 => .ok (.ldImm (fieldX w) (fieldKk w))
  | 0x7#4 => .ok (.addImm (fieldX w) (fieldKk w))
  | 0x8#4 => decodeFamily8 w
  | 0x9#4 => .ok (.sneReg (fieldX w) (fieldY w))
  | 0xA#4 => .ok (.ldI (fieldNnn w))
  | 0xB#4 => .ok (.jpV0 (fieldNnn w))
  | 0xC#4 => .ok (.rnd (fieldX w) (fieldKk w))
  | 0xD#4 => .ok (.drw (fieldX w) (fieldY w) (fieldN w))
  | 0xE#4 => decodeFamilyE w
  | _ => decodeFamilyF f w  -- the one value left, 0xF

/-- `Decode(w)` of this core (R84). -/
def decode (w : Word) : Except DecodeError Instr := decodeWith fDecode w

/-- The big-endian word of two bytes: the byte at the lower address is the more significant (R65). -/
def wordOfBytes (hi lo : Byte) : Word := BitVec.ofNat 16 (hi.toNat * 256 + lo.toNat)

/-- The more significant byte of a word, the one at the lower address (R65). -/
def hiByte (w : Word) : Byte := w.extractLsb' 8 8

/-- The less significant byte of a word, the one at the higher address (R65). -/
def loByte (w : Word) : Byte := w.extractLsb' 0 8

/-- Decoding bytes in memory order: the instruction and the bytes after it (R65, R80). -/
def decodeBytes : List Byte → Except DecodeError (Instr × List Byte)
  | hi :: lo :: rest =>
    match decode (wordOfBytes hi lo) with
    | .ok i => .ok (i, rest)
    | .error e => .error e
  | _ => .error .truncated

/-! The encoder. A word is written as hex digits: the top nibble times 0x1000 and so on (R81, R83). -/

/-- Format A: `Onnn`. -/
def wordA (op : Nat) (nnn : Addr12) : Word := BitVec.ofNat 16 (op * 0x1000 + nnn.toNat)

/-- Formats XKK and X: `Oxkk`. -/
def wordXKK (op : Nat) (x : Reg) (kk : Byte) : Word :=
  BitVec.ofNat 16 (op * 0x1000 + x.val * 0x100 + kk.toNat)

/-- Formats XY and XYN: `Oxyn`. -/
def wordXYN (op : Nat) (x y : Reg) (n : BitVec 4) : Word :=
  BitVec.ofNat 16 (op * 0x1000 + x.val * 0x100 + y.val * 0x10 + n.toNat)

/-- The canonical word of an instruction (R91). Ignored nibbles are written as the canonical column
writes them. -/
def encode : Instr → Word
  | .sys nnn => wordA 0x0 nnn
  | .jp nnn => wordA 0x1 nnn
  | .jpV0 nnn => wordA 0xB nnn
  | .call nnn => wordA 0x2 nnn
  | .ret => 0x00EE#16
  | .seImm x kk => wordXKK 0x3 x kk
  | .sneImm x kk => wordXKK 0x4 x kk
  | .seReg x y => wordXYN 0x5 x y 0x0
  | .sneReg x y => wordXYN 0x9 x y 0x0
  | .ldImm x kk => wordXKK 0x6 x kk
  | .ldReg x y => wordXYN 0x8 x y 0x0
  | .ldI nnn => wordA 0xA nnn
  | .addImm x kk => wordXKK 0x7 x kk
  | .addReg x y => wordXYN 0x8 x y 0x4
  | .sub x y => wordXYN 0x8 x y 0x5
  | .subn x y => wordXYN 0x8 x y 0x7
  | .andReg x y => wordXYN 0x8 x y 0x2
  | .orReg x y => wordXYN 0x8 x y 0x1
  | .xorReg x y => wordXYN 0x8 x y 0x3
  | .addI x => wordXKK 0xF x 0x1E
  | .shr x y => wordXYN 0x8 x y 0x6
  | .shl x y => wordXYN 0x8 x y 0xE
  | .rnd x kk => wordXKK 0xC x kk
  | .bcd x => wordXKK 0xF x 0x33
  | .storeRegs x => wordXKK 0xF x 0x55
  | .loadRegs x => wordXKK 0xF x 0x65
  | .ldFont x => wordXKK 0xF x 0x29
  | .readDt x => wordXKK 0xF x 0x07
  | .writeDt x => wordXKK 0xF x 0x15
  | .writeSt x => wordXKK 0xF x 0x18
  | .skp x => wordXKK 0xE x 0x9E
  | .sknp x => wordXKK 0xE x 0xA1
  | .waitKey x => wordXKK 0xF x 0x0A
  | .drw x y n => wordXYN 0xD x y n
  | .cls => 0x00E0#16

/-- The instruction's bytes in memory order (R65). -/
def encodeBytes (i : Instr) : List Byte := [hiByte (encode i), loByte (encode i)]

/-- The mask column of R91. -/
def tableMask : Instr → Word
  | .ret | .cls | .addI _ | .bcd _ | .storeRegs _ | .loadRegs _ | .ldFont _ | .readDt _
  | .writeDt _ | .writeSt _ | .waitKey _ => 0xF0FF
  | .ldReg _ _ | .addReg _ _ | .sub _ _ | .subn _ _ | .andReg _ _ | .orReg _ _ | .xorReg _ _
  | .shr _ _ | .shl _ _ => 0xF00F
  | .skp _ | .sknp _ => 0xF001
  | .sys _ | .jp _ | .jpV0 _ | .call _ | .seImm _ _ | .sneImm _ _ | .seReg _ _ | .sneReg _ _
  | .ldImm _ _ | .ldI _ | .addImm _ _ | .rnd _ _ | .drw _ _ _ => 0xF000

/-- The match column of R91. -/
def tableMatch : Instr → Word
  | .sys _ => 0x0000
  | .jp _ => 0x1000
  | .jpV0 _ => 0xB000
  | .call _ => 0x2000
  | .ret => 0x00EE
  | .seImm _ _ => 0x3000
  | .sneImm _ _ => 0x4000
  | .seReg _ _ => 0x5000
  | .sneReg _ _ => 0x9000
  | .ldImm _ _ => 0x6000
  | .ldReg _ _ => 0x8000
  | .ldI _ => 0xA000
  | .addImm _ _ => 0x7000
  | .addReg _ _ => 0x8004
  | .sub _ _ => 0x8005
  | .subn _ _ => 0x8007
  | .andReg _ _ => 0x8002
  | .orReg _ _ => 0x8001
  | .xorReg _ _ => 0x8003
  | .addI _ => 0xF01E
  | .shr _ _ => 0x8006
  | .shl _ _ => 0x800E
  | .rnd _ _ => 0xC000
  | .bcd _ => 0xF033
  | .storeRegs _ => 0xF055
  | .loadRegs _ => 0xF065
  | .ldFont _ => 0xF029
  | .readDt _ => 0xF007
  | .writeDt _ => 0xF015
  | .writeSt _ => 0xF018
  | .skp _ => 0xE000
  | .sknp _ => 0xE001
  | .waitKey _ => 0xF00A
  | .drw _ _ _ => 0xD000
  | .cls => 0x00E0

/-! The opcode table's numbering (spec/opcode_table.json): bit 0 is the least significant bit of the
one 16-bit word. -/

/-- The word whose low `nbits` bits are those of `w` and whose other bits are 0. -/
def tableWord (nbits w : Nat) : Word := BitVec.ofNat 16 (w % 2 ^ nbits)

/-- The instruction the decoder reads from the bytes of a table word, laid out big-endian (R65). -/
def decodeTableWord (nbits w : Nat) : Option Instr :=
  match decodeBytes [hiByte (tableWord nbits w), loByte (tableWord nbits w)] with
  | .ok (i, _) => some i
  | .error _ => none

end Sys2Proof
end

