-- ==== Sys2Proof/Machine/Params.lean ====
section
/-! DEFINITION. The parameters the spec fixes (R7, R8), and the conventional font (93, G5). -/

namespace Sys2Proof.Machine

/-- `MEM_SIZE` (R7). -/
def memSize : Nat := 4096

/-- The last address of memory (R60). -/
def maxAddress : Nat := 0xFFF

/-- `PROG_BASE` (R7). -/
def progBase : Nat := 0x200

/-- `MAX_IMAGE` (R7). -/
def maxImage : Nat := 3584

/-- `STACK_DEPTH` (R7). -/
def stackDepth : Nat := 16

/-- `GLYPH_BYTES` (R7). -/
def glyphBytes : Nat := 5

/-- `CYCLES_PER_TICK` (R7, R274). -/
def cyclesPerTick : Nat := 10

/-- `FIELD_W` (R7). -/
def fieldW : Nat := 64

/-- `FIELD_H` (R7). -/
def fieldH : Nat := 32

/-- `ALLOW_ODD_PC`, which the spec fixes as `false` (R8, R67, D2). Log 12. -/
def allowOddPc : Bool := false

/-- What a memory cell that nothing has written reads as: memory is all 0 at construction (R37). Log 16. -/
def unlistedByte : Byte := 0

/-- The conventional font, glyph `d` at `5 * d` (93, G5). The core does not fix it: `FONT` is host data
(R8, D34), and no meaning uses this list. Log 16. -/
def conventionalFont : List Byte :=
  [0xF0, 0x90, 0x90, 0x90, 0xF0] ++ [0x20, 0x60, 0x20, 0x20, 0x70] ++
  [0xF0, 0x10, 0xF0, 0x80, 0xF0] ++ [0xF0, 0x10, 0xF0, 0x10, 0xF0] ++
  [0x90, 0x90, 0xF0, 0x10, 0x10] ++ [0xF0, 0x80, 0xF0, 0x10, 0xF0] ++
  [0xF0, 0x80, 0xF0, 0x90, 0xF0] ++ [0xF0, 0x10, 0x20, 0x40, 0x40] ++
  [0xF0, 0x90, 0xF0, 0x90, 0xF0] ++ [0xF0, 0x90, 0xF0, 0x10, 0xF0] ++
  [0xF0, 0x90, 0xF0, 0x90, 0x90] ++ [0xE0, 0x90, 0xE0, 0x90, 0xE0] ++
  [0xF0, 0x80, 0x80, 0x80, 0xF0] ++ [0xE0, 0x90, 0x90, 0x90, 0xE0] ++
  [0xF0, 0x80, 0xF0, 0x80, 0xF0] ++ [0xF0, 0x80, 0xF0, 0x80, 0x80]

end Sys2Proof.Machine
end

