-- ==== Sys2Proof/Machine/State.lean ====
section
/-! DEFINITION. The state of the core as the spec lists it (R20), the state of the two collaborators the
core reads back (R278, R279), and two counters of the model's own. -/

namespace Sys2Proof.Machine

/-- Memory (R60): the cells that differ from `unlistedByte`, by strictly rising address
(`Memory.wf` in Ops.lean). -/
abbrev Memory := List Host.Cell

/-- The faults the core raises (R260), each with the info it records. `raise` (Ops.lean) writes one into
`State.fault`, and the step that raises it answers a NEXT state (R261, R262; log 4). Safe: no path of
`exec` or `step` answers `Host.Outcome.fault`, so a fault hides no effect the spec gives. -/
inductive Fault where
  /-- Code 1. A fetch, read or write above 0xFFF: raised by `memRead` and `memWrite` (R61, R62). Safe. -/
  | memOutOfRange (address : Nat)
  /-- Code 2. CALL with 16 entries on the stack: raised by `push` (R28). Safe. -/
  | stackOverflow (pc : Word)
  /-- Code 3. RET with an empty stack: raised by `pop` (R28). Safe. -/
  | stackUnderflow (pc : Word)
  /-- Code 4. A word the decoder gives no leaf: raised by `cycle` (R92, R273). Safe. -/
  | illegalInstruction (w pc : Word)
  /-- Code 5. A fetch at an odd PC: raised by `fetch` (R66). Safe. -/
  | misalignedFetch (pc : Word)
  /-- Code 6. SKP or SKNP with Vx above 15: raised by `keyCode` (R220, R221). Safe. -/
  | keyIndexOutOfRange (value : Byte)
  deriving DecidableEq, Repr

/-- Why a step has no meaning. Every instruction of the table has one, so nothing raises this. -/
inductive Refusal where
  /-- Raised by an arm of `exec` without a meaning; there is none left. Safe. -/
  | notModelled (mnemonic : String)
  deriving DecidableEq, Repr

/-- The whole state (R20, R36; the last two fields are the model's own). -/
structure State where
  /-- `mem[0x000..0xFFF]` (R60). -/
  mem : Memory
  /-- `V[0..15]` (R21). -/
  v : Vector Byte 16
  /-- The index register `I` (R23). -/
  i : Word
  /-- The program counter `PC` (R24). -/
  pc : Word
  /-- `stack[0..15]` (R27). -/
  stack : Vector Word 16
  /-- `SP`, the number of stack entries in use, 0..16 (R27; log 17). -/
  sp : Fin 17
  /-- The delay timer `DT` (R29). -/
  dt : Byte
  /-- The sound timer `ST` (R30). -/
  st : Byte
  /-- Quirk (a), `Q_INC_I` (R31). -/
  qIncI : Bool
  /-- Quirk (b), `Q_SHIFT_VY` (R32). -/
  qShiftVy : Bool
  /-- `halted` (R33). -/
  halted : Bool
  /-- `key_wait`: the register an `Fx0A` waits to fill (R33). -/
  keyWait : Option Reg
  /-- The fault record (R34). -/
  fault : Option Fault
  /-- `pc_set`: whether the executor wrote PC (R26; log 18). -/
  pcSet : Bool
  /-- The display collaborator's bitmap (R278; log 14). -/
  bitmap : Bitmap
  /-- The keyboard collaborator's key-down state (R279; log 15). -/
  keysDown : Vector Bool 16
  /-- The model's own: how many random bytes have been drawn (R281; log 6). -/
  draws : Nat
  /-- The model's own: how many cycles of the current tick's batch are done (R274; log 1). -/
  tickPos : Nat
  deriving DecidableEq, Repr

/-- The core as constructed (R37, R300). The quirk values are log 11, the collaborators' log 14 and 15. -/
def State.constructed : State where
  mem := []
  v := Vector.replicate 16 0
  i := 0
  pc := 0
  stack := Vector.replicate 16 0
  sp := 0
  dt := 0
  st := 0
  qIncI := false
  qShiftVy := false
  halted := true
  keyWait := none
  fault := none
  pcSet := false
  bitmap := Bitmap.blank
  keysDown := Vector.replicate 16 false
  draws := 0
  tickPos := 0

/-- The core right after the boot sequence's `reset()` (R37, R301): as constructed, with PC at the reset
vector 0x200 and the core halted. Log 3 says how a program comes to run from here; log 21 why the open
settings of `reset()` make no difference. -/
def State.reset : State :=
  { State.constructed with pc := BitVec.ofNat 16 progBase }

end Sys2Proof.Machine
end

