-- ==== Sys2Proof/Machine/Ops.lean ====
section
/-! DEFINITION. The named operations over memory, registers, stack and faults (R10, R28, R61, R62, R261),
the display and keyboard ports (R278, R279), the random source (R281) and the mode (R33). An operation
that may raise answers `Except State α`: `.error s` is the state with the fault raised. -/

namespace Sys2Proof.Machine

/-! Memory as data. -/

/-- The byte at an address. -/
def Memory.read : Memory → Nat → Byte
  | [], _ => unlistedByte
  | (a, b) :: m, k => if a = k then b else Memory.read m k

/-- Memory with one byte written; the form of `Memory.wf` is kept. -/
def Memory.write : Memory → Nat → Byte → Memory
  | [], k, b => if b = unlistedByte then [] else [(k, b)]
  | (a, c) :: m, k, b =>
    if k < a then (if b = unlistedByte then (a, c) :: m else (k, b) :: (a, c) :: m)
    else if k = a then (if b = unlistedByte then m else (a, b) :: m)
    else (a, c) :: Memory.write m k b

/-- Addresses rise strictly from `lo`, stay within memory, and no cell holds `unlistedByte`. -/
def Memory.wfFrom : Nat → Memory → Bool
  | _, [] => true
  | lo, (a, b) :: m =>
    decide (lo ≤ a) && decide (a ≤ maxAddress) && decide (b ≠ unlistedByte) && Memory.wfFrom (a + 1) m

/-- The canonical form of memory: equal memories are equal lists. -/
def Memory.wf (m : Memory) : Bool := Memory.wfFrom 0 m

/-! Faults. -/

/-- `raise Fault(kind, info)` records the fault if none is recorded (R261). That the instruction, the
batch and the tick end is in the callers: `.error` here, `advance` and `tickSlot` in Cycle.lean. -/
def raise (s : State) (f : Fault) : State :=
  match s.fault with
  | none => { s with fault := some f }
  | some _ => s

/-- The codes of R260. -/
def Fault.code : Fault → Nat
  | .memOutOfRange _ => 1
  | .stackOverflow _ => 2
  | .stackUnderflow _ => 3
  | .illegalInstruction _ _ => 4
  | .misalignedFetch _ => 5
  | .keyIndexOutOfRange _ => 6

/-- The end of an executor: raised or not, the step goes on to a next state (R261; log 4). -/
def settle : Except State State → Host.Outcome State Fault Refusal
  | .ok s => .next s
  | .error s => .next s

/-! Memory accesses. An address is an unbounded integer and never wraps (R63). -/

/-- `MemRead(addr, 1)` (R61). -/
def memRead (s : State) (addr : Nat) : Except State Byte :=
  if addr ≤ maxAddress then .ok (s.mem.read addr) else .error (raise s (.memOutOfRange addr))

/-- `MemWrite(addr, 1, v)` (R62). -/
def memWrite (s : State) (addr : Nat) (b : Byte) : Except State State :=
  if addr ≤ maxAddress then .ok { s with mem := s.mem.write addr b }
  else .error (raise s (.memOutOfRange addr))

/-! Registers. -/

/-- `V[x]` (R21). -/
def readV (s : State) (x : Reg) : Byte := s.v[x]

/-- `V[x] <- b` (R21). -/
def writeV (s : State) (x : Reg) (b : Byte) : State := { s with v := s.v.set x b }

/-- `VF`, the flag register (R22). -/
def flagReg : Reg := 15

/-- `I <- w` (R23). -/
def writeI (s : State) (w : Word) : State := { s with i := w }

/-- `PC <- target`, which also sets `pc_set` (R10, R26). -/
def setPc (s : State) (target : Word) : State := { s with pc := target, pcSet := true }

/-- A skip when `taken`: `PC <- (PC + 4) mod 65536`; otherwise PC is left to the cycle (R125). -/
def skipIf (taken : Bool) (s : State) : State := if taken then setPc s (s.pc + 4) else s

/-! The call stack. -/

/-- `Push(v)` (R28). -/
def push (s : State) (w : Word) : Except State State :=
  if h : s.sp.val < 16 then
    .ok { s with stack := s.stack.set s.sp.val w, sp := ⟨s.sp.val + 1, by omega⟩ }
  else .error (raise s (.stackOverflow s.pc))

/-- `Pop()`: the popped word and the state after (R28). The popped entry stays in the array (R124). -/
def pop (s : State) : Except State (Word × State) :=
  if h : s.sp.val = 0 then .error (raise s (.stackUnderflow s.pc))
  else
    .ok (s.stack[s.sp.val - 1]'(by have := s.sp.isLt; omega),
      { s with sp := ⟨s.sp.val - 1, by have := s.sp.isLt; omega⟩ })

/-! The device ports. -/

/-- `clear()`: every pixel off (R278). -/
def clearDisplay (s : State) : State := { s with bitmap := Bitmap.blank }

/-- Pixel `(px, py)` of a bitmap; off outside the field. -/
def Bitmap.pixel (bm : Bitmap) (px py : Nat) : Bool :=
  if h : px < 64 ∧ py < 32 then (bm[px]'h.1)[py]'h.2 else false

/-- A bitmap with the pixel `(px, py)` of the field toggled. -/
def Bitmap.toggle (bm : Bitmap) (px py : Nat) (h : px < 64 ∧ py < 32) : Bitmap :=
  bm.set px ((bm[px]'h.1).set py (!(bm[px]'h.1)[py]'h.2) h.2) h.1

/-- `set_pixel(px, py)`: toggles a pixel of the field and answers whether it is now off; outside the field
the bitmap and the answer are `off`'s (`DISPLAY_OFF_FIELD`) (R278). -/
def setPixel (off : Bitmap → Nat → Nat → Bitmap × Bool) (s : State) (px py : Nat) : State × Bool :=
  if h : px < 64 ∧ py < 32 then
    ({ s with bitmap := Bitmap.toggle s.bitmap px py h }, (s.bitmap[px]'h.1)[py]'h.2)
  else ({ s with bitmap := (off s.bitmap px py).1 }, (off s.bitmap px py).2)

/-- `is_key_pressed(k)` for a key code (R279). -/
def keyPressed (s : State) (k : Fin 16) : Bool := s.keysDown[k]

/-- `Random()`: a fresh free byte and the state after the draw (R281; log 6). -/
def drawRandom (s : State) : Byte × State :=
  (Config.randomByte s.draws, { s with draws := s.draws + 1 })

/-- `sound_active` (R280). -/
def soundActive (s : State) : Bool := decide (0 < s.st.toNat)

/-! The mode. -/

/-- The execution mode the source names (R33). -/
inductive Mode where
  | running | halted | blockedOnKey
  deriving DecidableEq, Repr

/-- The mode, from its two fields (R33). -/
def mode (s : State) : Mode :=
  if s.halted then .halted else if s.keyWait.isSome then .blockedOnKey else .running

/-- The core executes: no fault is recorded, it is not halted and waits for no key (R273). -/
def executes (s : State) : Bool := s.fault.isNone && !s.halted && s.keyWait.isNone

/-! Fetch. -/

/-- `Fetch()` under a setting of `ALLOW_ODD_PC`: the word at PC, big-endian (R65, R66, R67). -/
def fetchWith (allowOdd : Bool) (s : State) : Except State Word :=
  if s.pc.toNat % 2 = 1 ∧ allowOdd = false then .error (raise s (.misalignedFetch s.pc))
  else
    match memRead s s.pc.toNat with
    | .error t => .error t
    | .ok hi =>
      match memRead s (s.pc.toNat + 1) with
      | .error t => .error t
      | .ok lo => .ok (wordOfBytes hi lo)

/-- `Fetch()` of this core (R66). -/
def fetch (s : State) : Except State Word := fetchWith allowOddPc s

end Sys2Proof.Machine
end

