-- ==== Sys2Proof/Machine/Flags.lean ====
section
/-! DEFINITION. The flag computations (R160): each is the byte 0 or 1 that goes to `VF` after the result
(R22). -/

namespace Sys2Proof.Machine

/-- A flag as the byte 0 or 1. -/
def flagByte (c : Bool) : Byte := if c then 1 else 0

/-- ADD: 1 iff the unsigned sum exceeds 255 (R162). -/
def carryFlag (a b : Byte) : Byte := flagByte (decide (255 < a.toNat + b.toNat))

/-- SUB and SUBN: 1 iff the minuend is at least the subtrahend (R163, R164). -/
def noBorrowFlag (minuend subtrahend : Byte) : Byte :=
  flagByte (decide (subtrahend.toNat ≤ minuend.toNat))

/-- SHR: bit 0 of the source (R169). -/
def shiftedOutRight (t : Byte) : Byte := BitVec.ofNat 8 (t.toNat % 2)

/-- SHL: bit 7 of the source before the shift (R170). -/
def shiftedOutLeft (t : Byte) : Byte := BitVec.ofNat 8 (t.toNat / 128)

/-- The result into `V[x]`, then the flag into `VF`: with `x = 15` the flag is what stays (R22). -/
def writeWithFlag (s : State) (x : Reg) (result flag : Byte) : State :=
  writeV (writeV s x result) flagReg flag

end Sys2Proof.Machine
end

