-- ==== Sys2Proof/Machine/Operands.lean ====
section
/-! DEFINITION. The operand forms: what a field of the word stands for, the quirk's shift source, the
effective addresses, the key code, the digits of BCD and the coordinates of DRW (R82, R63, R235). -/

namespace Sys2Proof.Machine

/-- `zext_16(nnn)` (R82). -/
def zext16 (nnn : Addr12) : Word := BitVec.ofNat 16 nnn.toNat

/-- The target of `JP V0, nnn`: the sum is not masked to 12 bits (R122). -/
def indexedTarget (s : State) (nnn : Addr12) : Word :=
  BitVec.ofNat 16 (nnn.toNat + (readV s 0).toNat)

/-- The shift source, chosen by quirk (b) (R32, R169, R170). -/
def shiftSource (s : State) (x y : Reg) : Byte := if s.qShiftVy then readV s y else readV s x

/-- The effective address `I + k`, an unbounded integer (R63). -/
def dataAddress (s : State) (k : Nat) : Nat := s.i.toNat + k

/-- The registers `V0`..`Vx` of a block transfer, in order (R191, R192). -/
def regsUpTo (x : Reg) : List Reg :=
  ([0, 1, 2, 3, 4, 5, 6, 7, 8, 9, 10, 11, 12, 13, 14, 15] : List Reg).filter (fun r => decide (r ≤ x))

/-- The end of a block transfer: `I <- (I + x + 1) mod 65536` when quirk (a) is on (R31, R191, R192). -/
def advanceI (s : State) (x : Reg) : State :=
  if s.qIncI then writeI s (BitVec.ofNat 16 (s.i.toNat + x.val + 1)) else s

/-- The decimal digits of a byte: hundreds, tens, ones (R190). -/
def bcdHundreds (b : Byte) : Byte := BitVec.ofNat 8 (b.toNat / 100)

/-- Tens (R190). -/
def bcdTens (b : Byte) : Byte := BitVec.ofNat 8 (b.toNat / 10 % 10)

/-- Ones (R190). -/
def bcdOnes (b : Byte) : Byte := BitVec.ofNat 8 (b.toNat % 10)

/-- The glyph address of LD F: the whole byte times 5 (R193). -/
def glyphAddress (b : Byte) : Word := BitVec.ofNat 16 (b.toNat * glyphBytes)

/-- The key code in `V[x]`, or the fault for a value above 15 (R220, R221). -/
def keyCode (s : State) (x : Reg) : Except State (Fin 16) :=
  if h : (readV s x).toNat < 16 then .ok ⟨(readV s x).toNat, h⟩
  else .error (raise s (.keyIndexOutOfRange (readV s x)))

/-- `Wrap(c, size)`: one subtraction, test `>` (R235). -/
def wrap (c size : Nat) : Nat := if size < c then c - size else c

/-- A corner coordinate of DRW at one set bit (R236). `latched` is `V[r]` as read before VF was cleared.
With `live` it is `V[r]` now; only VF can have changed since, so only for `r = 15` is there anything to
read again (log 8). -/
def cornerAt (m : DrawSampling) (s : State) (r : Reg) (latched : Byte) : Byte :=
  if r = flagReg ∧ m = .live then readV s r else latched

end Sys2Proof.Machine
end

