-- ==== Sys2Proof/Machine/Arithmetic.lean ====
section
/-! DEFINITION. The arithmetic, logic, shift and random instructions (42_arithmetic.md). Sums and
products are exact on integers and narrowed at the end (R9, R160); operands are read first, then `V[x]`
is written, then `VF` (R22). -/

namespace Sys2Proof.Machine

/-- R161: no flag. -/
def execAddImm (x : Reg) (kk : Byte) (s : State) : Host.Outcome State Fault Refusal :=
  .next (writeV s x (BitVec.ofNat 8 ((readV s x).toNat + kk.toNat)))

/-- R162. -/
def execAddReg (x y : Reg) (s : State) : Host.Outcome State Fault Refusal :=
  let a := readV s x
  let b := readV s y
  .next (writeWithFlag s x (BitVec.ofNat 8 (a.toNat + b.toNat)) (carryFlag a b))

/-- R163. -/
def execSub (x y : Reg) (s : State) : Host.Outcome State Fault Refusal :=
  let a := readV s x
  let b := readV s y
  .next (writeWithFlag s x (BitVec.ofInt 8 ((a.toNat : Int) - b.toNat)) (noBorrowFlag a b))

/-- R164. -/
def execSubn (x y : Reg) (s : State) : Host.Outcome State Fault Refusal :=
  let a := readV s x
  let b := readV s y
  .next (writeWithFlag s x (BitVec.ofInt 8 ((b.toNat : Int) - a.toNat)) (noBorrowFlag b a))

/-- R165. -/
def execAndReg (x y : Reg) (s : State) : Host.Outcome State Fault Refusal :=
  .next (writeV s x (readV s x &&& readV s y))

/-- R166. -/
def execOrReg (x y : Reg) (s : State) : Host.Outcome State Fault Refusal :=
  .next (writeV s x (readV s x ||| readV s y))

/-- R167. -/
def execXorReg (x y : Reg) (s : State) : Host.Outcome State Fault Refusal :=
  .next (writeV s x (readV s x ^^^ readV s y))

/-- R168: no flag. -/
def execAddI (x : Reg) (s : State) : Host.Outcome State Fault Refusal :=
  .next (writeI s (BitVec.ofNat 16 (s.i.toNat + (readV s x).toNat)))

/-- R169. -/
def execShr (x y : Reg) (s : State) : Host.Outcome State Fault Refusal :=
  let t := shiftSource s x y
  .next (writeWithFlag s x (BitVec.ofNat 8 (t.toNat / 2)) (shiftedOutRight t))

/-- R170. -/
def execShl (x y : Reg) (s : State) : Host.Outcome State Fault Refusal :=
  let t := shiftSource s x y
  .next (writeWithFlag s x (BitVec.ofNat 8 (t.toNat * 2)) (shiftedOutLeft t))

/-- R171: each execution takes a fresh draw. -/
def execRnd (x : Reg) (kk : Byte) (s : State) : Host.Outcome State Fault Refusal :=
  let d := drawRandom s
  .next (writeV d.2 x (d.1 &&& kk))

end Sys2Proof.Machine
end

