-- ==== Sys2Proof/Machine/ControlFlow.lean ====
section
/-! DEFINITION. The control flow instructions (40_control_flow.md). A target is not checked here; the
next fetch checks it (R129). -/

namespace Sys2Proof.Machine

/-- R120: a plain jump. -/
def execSys (nnn : Addr12) (s : State) : Host.Outcome State Fault Refusal :=
  .next (setPc s (zext16 nnn))

/-- R121. -/
def execJp (nnn : Addr12) (s : State) : Host.Outcome State Fault Refusal :=
  .next (setPc s (zext16 nnn))

/-- R122. -/
def execJpV0 (nnn : Addr12) (s : State) : Host.Outcome State Fault Refusal :=
  .next (setPc s (indexedTarget s nnn))

/-- R123: the address of the next instruction is pushed; an overflow writes neither stack nor PC. -/
def execCall (nnn : Addr12) (s : State) : Host.Outcome State Fault Refusal :=
  settle (match push s (s.pc + 2) with
    | .error t => .error t
    | .ok t => .ok (setPc t (zext16 nnn)))

/-- R124. -/
def execRet (s : State) : Host.Outcome State Fault Refusal :=
  settle (match pop s with
    | .error t => .error t
    | .ok (target, t) => .ok (setPc t target))

/-- R125. -/
def execSeImm (x : Reg) (kk : Byte) (s : State) : Host.Outcome State Fault Refusal :=
  .next (skipIf (decide (readV s x = kk)) s)

/-- R126. -/
def execSneImm (x : Reg) (kk : Byte) (s : State) : Host.Outcome State Fault Refusal :=
  .next (skipIf (decide (readV s x ≠ kk)) s)

/-- R127. -/
def execSeReg (x y : Reg) (s : State) : Host.Outcome State Fault Refusal :=
  .next (skipIf (decide (readV s x = readV s y)) s)

/-- R128. -/
def execSneReg (x y : Reg) (s : State) : Host.Outcome State Fault Refusal :=
  .next (skipIf (decide (readV s x ≠ readV s y)) s)

end Sys2Proof.Machine
end

