-- ==== Sys2Proof/Machine/Display.lean ====
section
/-! DEFINITION. The display instructions (46_display.md). The two settings the spec leaves open,
`DISPLAY_OFF_FIELD` and `DRAW_XY_SAMPLING`, are arguments; `execDrw` passes the free constants. -/

namespace Sys2Proof.Machine

/-- The settings and operands that stay fixed while one DRW draws. -/
structure DrawArgs where
  /-- `DISPLAY_OFF_FIELD` (R278). -/
  off : Bitmap → Nat → Nat → Bitmap × Bool
  /-- `DRAW_XY_SAMPLING` (R236). -/
  sampling : DrawSampling
  /-- The register of the column. -/
  x : Reg
  /-- The register of the row. -/
  y : Reg
  /-- `V[x]` before VF is cleared. -/
  x0 : Byte
  /-- `V[y]` before VF is cleared. -/
  y0 : Byte

/-- One set bit of the sprite, row `r`, column `c`: the wrapped pixel is toggled, and VF is set on a
collision (R235, R236). -/
def drawBit (d : DrawArgs) (r c : Nat) (s : State) : State :=
  let px := wrap ((cornerAt d.sampling s d.x d.x0).toNat + c) fieldW
  let py := wrap ((cornerAt d.sampling s d.y d.y0).toNat + r) fieldH
  let p := setPixel d.off s px py
  if p.2 then writeV p.1 flagReg 1 else p.1

/-- One sprite row `b`, columns left to right, bit 7 leftmost; a clear bit calls nothing (R236). -/
def drawRow (d : DrawArgs) (r : Nat) (b : Byte) : List Nat → State → State
  | [], s => s
  | c :: cs, s => drawRow d r b cs (if b.getLsbD (7 - c) then drawBit d r c s else s)

/-- The next `count` rows from row `r` on, each read from `I + r` before its pixels (R64, R236). -/
def drawRows (d : DrawArgs) : (count r : Nat) → State → Except State State
  | 0, _, s => .ok s
  | count + 1, r, s =>
    match memRead s (dataAddress s r) with
    | .error t => .error t
    | .ok b => drawRows d count (r + 1) (drawRow d r b [0, 1, 2, 3, 4, 5, 6, 7] s)

/-- R236 under given settings. -/
def drawSprite (off : Bitmap → Nat → Nat → Bitmap × Bool) (sampling : DrawSampling)
    (x y : Reg) (n : BitVec 4) (s : State) : Except State State :=
  drawRows ⟨off, sampling, x, y, readV s x, readV s y⟩ n.toNat 0 (writeV s flagReg 0)

/-- R236. -/
def execDrw (x y : Reg) (n : BitVec 4) (s : State) : Host.Outcome State Fault Refusal :=
  settle (drawSprite Config.displayOffField Config.drawXySampling x y n s)

/-- R237. -/
def execCls (s : State) : Host.Outcome State Fault Refusal :=
  .next (clearDisplay s)

end Sys2Proof.Machine
end

