-- ==== Sys2Proof/Machine/Keyboard.lean ====
section
/-! DEFINITION. The keyboard instructions (45_keyboard.md). -/

namespace Sys2Proof.Machine

/-- R220. -/
def execSkp (x : Reg) (s : State) : Host.Outcome State Fault Refusal :=
  settle (match keyCode s x with
    | .error t => .error t
    | .ok k => .ok (skipIf (keyPressed s k) s))

/-- R221. -/
def execSknp (x : Reg) (s : State) : Host.Outcome State Fault Refusal :=
  settle (match keyCode s x with
    | .error t => .error t
    | .ok k => .ok (skipIf (!keyPressed s k) s))

/-- R222: the core waits; the cycle advances PC past the instruction (C5, D24). -/
def execWaitKey (x : Reg) (s : State) : Host.Outcome State Fault Refusal :=
  .next { s with keyWait := some x }

end Sys2Proof.Machine
end

