-- ==== Sys2Proof/Machine/LoadMove.lean ====
section
/-! DEFINITION. The register load and move instructions (41_load_move.md). -/

namespace Sys2Proof.Machine

/-- R150. -/
def execLdImm (x : Reg) (kk : Byte) (s : State) : Host.Outcome State Fault Refusal :=
  .next (writeV s x kk)

/-- R151. -/
def execLdReg (x y : Reg) (s : State) : Host.Outcome State Fault Refusal :=
  .next (writeV s x (readV s y))

/-- R152. -/
def execLdI (nnn : Addr12) (s : State) : Host.Outcome State Fault Refusal :=
  .next (writeI s (zext16 nnn))

end Sys2Proof.Machine
end

