-- ==== Sys2Proof/Machine/MemoryTransfer.lean ====
section
/-! DEFINITION. The memory transfer instructions (43_memory_transfer.md). Bytes are accessed one at a
time in ascending order; at the first address above 0xFFF the instruction ends with the earlier accesses
done (R64, R263; log 5). -/

namespace Sys2Proof.Machine

/-- Bytes written one after another from an address on. -/
def writeBytes (s : State) (addr : Nat) : List Byte → Except State State
  | [] => .ok s
  | b :: bs =>
    match memWrite s addr b with
    | .error t => .error t
    | .ok t => writeBytes t (addr + 1) bs

/-- The stores of a block: `V[k]` to `base + k` for each register of the list (R191). -/
def storeList (base : Nat) : List Reg → State → Except State State
  | [], s => .ok s
  | k :: ks, s =>
    match memWrite s (base + k.val) (readV s k) with
    | .error t => .error t
    | .ok t => storeList base ks t

/-- The loads of a block: `V[k]` from `base + k` for each register of the list (R192). -/
def loadList (base : Nat) : List Reg → State → Except State State
  | [], s => .ok s
  | k :: ks, s =>
    match memRead s (base + k.val) with
    | .error t => .error t
    | .ok b => loadList base ks (writeV s k b)

/-- R190. -/
def execBcd (x : Reg) (s : State) : Host.Outcome State Fault Refusal :=
  let b := readV s x
  settle (writeBytes s (dataAddress s 0) [bcdHundreds b, bcdTens b, bcdOnes b])

/-- R191. -/
def execStoreRegs (x : Reg) (s : State) : Host.Outcome State Fault Refusal :=
  settle (match storeList (dataAddress s 0) (regsUpTo x) s with
    | .error t => .error t
    | .ok t => .ok (advanceI t x))

/-- R192. -/
def execLoadRegs (x : Reg) (s : State) : Host.Outcome State Fault Refusal :=
  settle (match loadList (dataAddress s 0) (regsUpTo x) s with
    | .error t => .error t
    | .ok t => .ok (advanceI t x))

/-- R193. -/
def execLdFont (x : Reg) (s : State) : Host.Outcome State Fault Refusal :=
  .next (writeI s (glyphAddress (readV s x)))

end Sys2Proof.Machine
end

