-- ==== Sys2Proof/Machine/Timers.lean ====
section
/-! DEFINITION. The timer instructions (44_timers.md) and the timer engine (R275). -/

namespace Sys2Proof.Machine

/-- R210. -/
def execReadDt (x : Reg) (s : State) : Host.Outcome State Fault Refusal :=
  .next (writeV s x s.dt)

/-- R211. -/
def execWriteDt (x : Reg) (s : State) : Host.Outcome State Fault Refusal :=
  .next { s with dt := readV s x }

/-- R212. -/
def execWriteSt (x : Reg) (s : State) : Host.Outcome State Fault Refusal :=
  .next { s with st := readV s x }

/-- One step of a timer: it stops at 0 and never wraps (R275). -/
def countDown (t : Byte) : Byte := if 0 < t.toNat then t - 1 else t

/-- `TimerDecrement()` (R275). -/
def timerDecrement (s : State) : State := { s with dt := countDown s.dt, st := countDown s.st }

end Sys2Proof.Machine
end

