-- ==== Sys2Proof/Machine/Dispatch.lean ====
section
/-! DEFINITION. Execute(leaf, w) of the cycle (R273): one arm per instruction, in the table's order. -/

namespace Sys2Proof.Machine

def exec (i : Instr) (s : State) : Host.Outcome State Fault Refusal :=
  match i with
  | .sys nnn => Sys2Proof.Machine.execSys nnn s
  | .jp nnn => Sys2Proof.Machine.execJp nnn s
  | .jpV0 nnn => Sys2Proof.Machine.execJpV0 nnn s
  | .call nnn => Sys2Proof.Machine.execCall nnn s
  | .ret => Sys2Proof.Machine.execRet s
  | .seImm x kk => Sys2Proof.Machine.execSeImm x kk s
  | .sneImm x kk => Sys2Proof.Machine.execSneImm x kk s
  | .seReg x y => Sys2Proof.Machine.execSeReg x y s
  | .sneReg x y => Sys2Proof.Machine.execSneReg x y s
  | .ldImm x kk => Sys2Proof.Machine.execLdImm x kk s
  | .ldReg x y => Sys2Proof.Machine.execLdReg x y s
  | .ldI nnn => Sys2Proof.Machine.execLdI nnn s
  | .addImm x kk => Sys2Proof.Machine.execAddImm x kk s
  | .addReg x y => Sys2Proof.Machine.execAddReg x y s
  | .sub x y => Sys2Proof.Machine.execSub x y s
  | .subn x y => Sys2Proof.Machine.execSubn x y s
  | .andReg x y => Sys2Proof.Machine.execAndReg x y s
  | .orReg x y => Sys2Proof.Machine.execOrReg x y s
  | .xorReg x y => Sys2Proof.Machine.execXorReg x y s
  | .addI x => Sys2Proof.Machine.execAddI x s
  | .shr x y => Sys2Proof.Machine.execShr x y s
  | .shl x y => Sys2Proof.Machine.execShl x y s
  | .rnd x kk => Sys2Proof.Machine.execRnd x kk s
  | .bcd x => Sys2Proof.Machine.execBcd x s
  | .storeRegs x => Sys2Proof.Machine.execStoreRegs x s
  | .loadRegs x => Sys2Proof.Machine.execLoadRegs x s
  | .ldFont x => Sys2Proof.Machine.execLdFont x s
  | .readDt x => Sys2Proof.Machine.execReadDt x s
  | .writeDt x => Sys2Proof.Machine.execWriteDt x s
  | .writeSt x => Sys2Proof.Machine.execWriteSt x s
  | .skp x => Sys2Proof.Machine.execSkp x s
  | .sknp x => Sys2Proof.Machine.execSknp x s
  | .waitKey x => Sys2Proof.Machine.execWaitKey x s
  | .drw x y n => Sys2Proof.Machine.execDrw x y n s
  | .cls => Sys2Proof.Machine.execCls s

end Sys2Proof.Machine
end

