-- ==== Sys2Proof/Machine/Cycle.lean ====
section
/-! DEFINITION. The instruction cycle (R273), the tick (R274) and the same tick taken one cycle at a time,
which is what the machine's step does (log 1). -/

namespace Sys2Proof.Machine

/-- The end of a cycle: PC moves past the instruction unless a fault was raised or the executor wrote PC
(R25, R26, R261). -/
def advance (s : State) : State :=
  if s.fault.isSome || s.pcSet then s else { s with pc := s.pc + 2 }

/-- The execution of one decoded instruction inside a cycle (R273). -/
def runInstr (i : Instr) (s : State) : Host.Outcome State Fault Refusal :=
  match exec i { s with pcSet := false } with
  | .next t => .next (advance t)
  | .fault f => .fault f
  | .refused r => .refused r

/-- `Cycle()` (R273): a no-op unless the core executes; else fetch, decode, execute, advance. -/
def cycle (s : State) : Host.Outcome State Fault Refusal :=
  if executes s then
    match fetch s with
    | .error t => .next t
    | .ok w =>
      match decode w with
      | .error _ => .next (raise s (.illegalInstruction w s.pc))
      | .ok i => runInstr i s
  else .next s

/-- The cycles of a batch, ended early by a fault (R274). -/
def batch : Nat → State → Host.Outcome State Fault Refusal
  | 0, s => .next s
  | n + 1, s =>
    match cycle s with
    | .next t => if t.fault.isSome then .next t else batch n t
    | .fault f => .fault f
    | .refused r => .refused r

/-- `run_tick()` (R274): nothing unless the core executes; else ten cycles, then one decrement of the
timers, which a fault skips. -/
def runTick (s : State) : Host.Outcome State Fault Refusal :=
  if executes s then
    match batch cyclesPerTick s with
    | .next t => if t.fault.isSome then .next t else .next (timerDecrement t)
    | .fault f => .fault f
    | .refused r => .refused r
  else .next s

/-- The tick's bookkeeping after one of its cycles: a fault ends the tick at once, the tenth cycle ends it
with the timer decrement (R274; log 1). -/
def afterCycle (s : State) : State :=
  if s.fault.isSome then { s with tickPos := 0 }
  else if cyclesPerTick ≤ s.tickPos + 1 then timerDecrement { s with tickPos := 0 }
  else { s with tickPos := s.tickPos + 1 }

/-- One cycle of one tick of a host that calls `run_tick()` again and again (R274, R277; log 1). A tick
that finds the core halted, waiting for a key or faulted does nothing. -/
def tickSlot (s : State) : Host.Outcome State Fault Refusal :=
  if s.tickPos = 0 ∧ executes s = false then .next s
  else
    match cycle s with
    | .next t => .next (afterCycle t)
    | .fault f => .fault f
    | .refused r => .refused r

/-- A byte put into memory from outside the core; an address above 0xFFF is left alone. -/
def pokeByte (m : Memory) (addr : Nat) (b : Byte) : Memory :=
  if addr ≤ maxAddress then m.write addr b else m

/-- The word of an instruction placed where the next fetch reads, and the core set to execute it: not
halted, no wait for a key, no fault (R273; log 3). -/
def placeWord (s : State) (w : Word) : State :=
  { s with
    mem := pokeByte (pokeByte s.mem s.pc.toNat (hiByte w)) (s.pc.toNat + 1) (loByte w)
    halted := false
    keyWait := none
    fault := none }

end Sys2Proof.Machine
end

