-- ==== Sys2Proof/Machine/Step.lean ====
section
/-! DEFINITION. The machine's step and the host's placement of one instruction. -/

namespace Sys2Proof.Machine

/-- One step: one cycle of a tick (R273, R274; log 1). -/
def step (s : State) : Host.Outcome State Fault Refusal := tickSlot s

/-- The state with the instruction of the table's bits `w` where the next step fetches it (log 3). -/
def State.withFetchWord (s : State) (nbits w : Nat) : State := placeWord s (tableWord nbits w)

end Sys2Proof.Machine
end

