-- ==== Sys2Proof/Machine/HostPort.lean ====
section
/-! DEFINITION. The host's operations on the core (R270-R272, R301-R304, R308), the change of the
key-down state between ticks (R279), the boot sequence (R306) and a run (R315). Each operation acts
between ticks only (R285, R305; log 2). -/

namespace Sys2Proof.Machine

/-- What the host and the keyboard can ask of the core (R308). -/
inductive HostOp where
  | loadProgram (bytes : List Byte)
  | store (address : Nat) (byte : Byte)
  | reset
  | runTick
  | halt
  | resume
  | setQuirk (name : String) (b : Bool)
  | deliverKeyPress (k : Nat)
  | keyState (k : Fin 16) (down : Bool)
  deriving DecidableEq, Repr

/-- Why a host operation is refused; a refused operation changes nothing (U18, U19). -/
inductive HostRefusal where
  | imageTooLarge        -- over 3584 bytes (R302)
  | addressOutOfRange    -- `store` above 0xFFF (R303)
  | unknownQuirk         -- a name that is neither `inc_i` nor `shift_vy` (R304)
  | keyOutOfRange        -- a key code above 15 (R272)
  | duringTick           -- a call while a tick runs (R285, R305, U19)
  | step (r : Refusal)   -- a cycle of the tick met an instruction without a meaning: never raised
  deriving DecidableEq, Repr

/-- Bytes put into memory one after another from an address on (R302). -/
def pokeBytes (m : Memory) (addr : Nat) : List Byte → Memory
  | [] => m
  | b :: bs => pokeBytes (pokeByte m addr b) (addr + 1) bs

/-- `load_program(bytes)` (R302). -/
def loadProgram (bytes : List Byte) (s : State) : Host.Outcome State Fault HostRefusal :=
  if maxImage < bytes.length then .refused .imageTooLarge
  else .next { s with mem := pokeBytes s.mem progBase bytes }

/-- `store(address, byte)` (R303). -/
def hostStore (address : Nat) (byte : Byte) (s : State) : Host.Outcome State Fault HostRefusal :=
  if address ≤ maxAddress then .next { s with mem := s.mem.write address byte }
  else .refused .addressOutOfRange

/-- `reset()` under given settings of `RESET_CLEARS_REGS` and `RESET_CLEARS_KEY_WAIT` (R37, R301). -/
def resetWith (regs : ResetRegs) (clearsKeyWait : Bool) (s : State) : State :=
  let t := { s with
    pc := BitVec.ofNat 16 progBase
    halted := true
    pcSet := false
    keyWait := if clearsKeyWait then none else s.keyWait }
  match regs with
  | .retain => t
  | .zero =>
    { t with
      v := Vector.replicate 16 0
      i := 0
      sp := 0
      stack := Vector.replicate 16 0
      dt := 0
      st := 0 }

/-- `reset()` (R301). -/
def hostReset (s : State) : State := resetWith Config.resetClearsRegs Config.resetClearsKeyWait s

/-- `halt()` (R270). -/
def hostHalt (s : State) : State := { s with halted := true }

/-- `resume()` (R271). -/
def hostResume (s : State) : State := { s with halted := false }

/-- `set_quirk(name, b)` (R304). -/
def setQuirk (name : String) (b : Bool) (s : State) : Host.Outcome State Fault HostRefusal :=
  if name = "inc_i" then .next { s with qIncI := b }
  else if name = "shift_vy" then .next { s with qShiftVy := b }
  else .refused .unknownQuirk

/-- `deliver_key_press(k)` for a key code: ignored by a faulted or halted core and when no wait is
pending (R272). -/
def acceptKey (k : Fin 16) (s : State) : State :=
  if s.fault.isSome then s
  else if s.halted then s
  else
    match s.keyWait with
    | none => s
    | some x => { writeV s x (BitVec.ofNat 8 k.val) with keyWait := none }

/-- `deliver_key_press(k)`; a code above 15 is refused (R272). -/
def deliverKeyPress (k : Nat) (s : State) : Host.Outcome State Fault HostRefusal :=
  if h : k < 16 then .next (acceptKey ⟨k, h⟩ s) else .refused .keyOutOfRange

/-- The keyboard's key-down state changes between ticks (R279, R308). -/
def setKeyState (k : Fin 16) (down : Bool) (s : State) : State :=
  { s with keysDown := s.keysDown.set k down }

/-- `run_tick()` as the host calls it (R274). -/
def hostRunTick (s : State) : Host.Outcome State Fault HostRefusal :=
  match runTick s with
  | .next t => .next t
  | .fault f => .fault f
  | .refused r => .refused (.step r)

/-- One call across the core's boundary, refused while a tick runs (R285, R305). -/
def hostCall (op : HostOp) (s : State) : Host.Outcome State Fault HostRefusal :=
  if s.tickPos ≠ 0 then .refused .duringTick
  else
    match op with
    | .loadProgram bytes => loadProgram bytes s
    | .store address byte => hostStore address byte s
    | .reset => .next (hostReset s)
    | .runTick => hostRunTick s
    | .halt => .next (hostHalt s)
    | .resume => .next (hostResume s)
    | .setQuirk name b => setQuirk name b s
    | .deliverKeyPress k => deliverKeyPress k s
    | .keyState k down => .next (setKeyState k down s)

/-- The state after a call: a refused call changes nothing (U18). -/
def afterCall (s : State) (op : HostOp) : State :=
  match hostCall op s with
  | .next t => t
  | .fault _ | .refused _ => s

/-- A run: a finite sequence of host operations; its observation is the state after the last (R315). -/
def runHost (ops : List HostOp) (s : State) : State := ops.foldl afterCall s

/-- The font stored by the host, byte by byte from 0x000 on (R303, R306). -/
def storeFont : Nat → List Byte → List HostOp
  | _, [] => []
  | a, b :: bs => .store a b :: storeFont (a + 1) bs

/-- The boot sequence up to `resume()` (R306), from `State.constructed`. -/
def bootOps (font image : List Byte) (incI shiftVy : Bool) : List HostOp :=
  storeFont 0 font ++ [.loadProgram image, .reset, .setQuirk "inc_i" incI, .setQuirk "shift_vy" shiftVy,
    .resume]

end Sys2Proof.Machine
end

