-- ==== Sys2Proof/Safety.lean ====
section
/-! DEFINITION. The terms claims use: states without a fault, the end of a program, the invariants, and
reads that a frame is said through. -/

namespace Sys2Proof.Machine

/-- No fault is recorded; every claim about a run has it as a premise (R262, U4). -/
abbrev NoFault (s : State) : Prop := s.fault = none

/-- The byte of memory at an address. -/
def byteAt (s : State) (addr : Nat) : Byte := s.mem.read addr

/-- The invariant of memory: canonical form. -/
abbrev MemoryOk (s : State) : Prop := s.mem.wf = true

/-- The fault record agrees with the state it stopped (R260, R261): an address fault names an address
outside memory, a stack fault the PC of a CALL with a full stack or of a RET with an empty one, an
illegal word one that decodes to no leaf and stands at PC, a fetch fault an odd PC, a key fault a value
above 15. -/
def FaultAgrees (s : State) : Prop :=
  match s.fault with
  | none => True
  | some (.memOutOfRange a) => 0xFFF < a
  | some (.stackOverflow p) => p = s.pc ∧ s.sp.val = 16
  | some (.stackUnderflow p) => p = s.pc ∧ s.sp.val = 0
  | some (.illegalInstruction w p) => p = s.pc ∧ decode w = .error (.illegal w)
  | some (.misalignedFetch p) => p = s.pc ∧ p.toNat % 2 = 1
  | some (.keyIndexOutOfRange k) => 15 < k.toNat

/-- A tick in progress has done fewer than ten cycles, and none is in progress once the core has faulted
(R274). -/
def TickOk (s : State) : Prop := s.tickPos < 10 ∧ (s.fault ≠ none → s.tickPos = 0)

/-- The word at PC is a jump to its own address (R315). -/
def SpinsAtPc (s : State) : Prop :=
  ∃ nnn : Addr12, nnn.toNat = s.pc.toNat ∧
    ∃ w, fetch s = .ok w ∧ (decode w = .ok (.jp nnn) ∨ decode w = .ok (.sys nnn))

/-- A program has finished by spinning: the core executes and the word at PC jumps to itself (R315). -/
def FinishedSpinning (s : State) : Prop := executes s = true ∧ SpinsAtPc s

/-- A program waits for a key, and has finished if none is delivered (R315). -/
def FinishedWaiting (s : State) : Prop := NoFault s ∧ mode s = .blockedOnKey

/-! Frames. `t = { s with v := t.v }` says that every field of `t` but `v` is that of `s`; each frame also
says it of memory byte by byte. -/

/-- Every byte of memory reads as before. -/
def KeepsMemory (s t : State) : Prop := ∀ a, byteAt t a = byteAt s a

/-- Nothing but the V registers may have changed. -/
def FrameV (s t : State) : Prop := t = { s with v := t.v } ∧ KeepsMemory s t

/-- Nothing but the V registers and the count of random draws may have changed. -/
def FrameVDraws (s t : State) : Prop := t = { s with v := t.v, draws := t.draws } ∧ KeepsMemory s t

/-- Nothing but `I` may have changed. -/
def FrameI (s t : State) : Prop := t = { s with i := t.i } ∧ KeepsMemory s t

/-- Nothing but the V registers and `I` may have changed. -/
def FrameVI (s t : State) : Prop := t = { s with v := t.v, i := t.i } ∧ KeepsMemory s t

/-- Nothing but PC and its per-cycle flag `pc_set` may have changed. -/
def FramePc (s t : State) : Prop := t = { s with pc := t.pc, pcSet := t.pcSet } ∧ KeepsMemory s t

/-- Nothing but PC, `pc_set`, the stack and SP may have changed. -/
def FramePcStack (s t : State) : Prop :=
  t = { s with pc := t.pc, pcSet := t.pcSet, stack := t.stack, sp := t.sp } ∧ KeepsMemory s t

/-- Nothing but DT may have changed. -/
def FrameDt (s t : State) : Prop := t = { s with dt := t.dt } ∧ KeepsMemory s t

/-- Nothing but ST may have changed. -/
def FrameSt (s t : State) : Prop := t = { s with st := t.st } ∧ KeepsMemory s t

/-- Nothing but the wait for a key may have changed. -/
def FrameKeyWait (s t : State) : Prop := t = { s with keyWait := t.keyWait } ∧ KeepsMemory s t

/-- Nothing but the display may have changed. -/
def FrameBitmap (s t : State) : Prop := t = { s with bitmap := t.bitmap } ∧ KeepsMemory s t

/-- Nothing but the V registers and the display may have changed. -/
def FrameVBitmap (s t : State) : Prop :=
  t = { s with v := t.v, bitmap := t.bitmap } ∧ KeepsMemory s t

/-! The encodings of R83, as the decoder reads them. -/

/-- Format A: every word with this top nibble is the instruction with its `nnn`. -/
def EncodedA (op : BitVec 4) (mk : Addr12 → Instr) : Prop :=
  ∀ w : Word, fieldOp w = op → decode w = .ok (mk (fieldNnn w))

/-- Format XKK: every word with this top nibble is the instruction with its `x` and `kk`. -/
def EncodedXKK (op : BitVec 4) (mk : Reg → Byte → Instr) : Prop :=
  ∀ w : Word, fieldOp w = op → decode w = .ok (mk (fieldX w) (fieldKk w))

/-- `8xyS`: every word of family 8 with this low nibble is the instruction with its `x` and `y`. -/
def Encoded8 (n : BitVec 4) (mk : Reg → Reg → Instr) : Prop :=
  ∀ w : Word, fieldOp w = 0x8 → fieldN w = n → decode w = .ok (mk (fieldX w) (fieldY w))

/-- `FxSS`: every word of family F with this low byte is the instruction with its `x`. -/
def EncodedF (kk : Byte) (mk : Reg → Instr) : Prop :=
  ∀ w : Word, fieldOp w = 0xF → fieldKk w = kk → decode w = .ok (mk (fieldX w))

/-! DRW as its pseudocode is written (R236): the corner is two variables `x0`, `y0`, which `live` sampling
reads again from `V[x]` and `V[y]` at every set bit. `drawSprite` is the model's own form of it. -/

/-- The loop over the columns of one row. -/
def pseudoColumns (off : Bitmap → Nat → Nat → Bitmap × Bool) (m : DrawSampling) (x y : Reg)
    (r : Nat) (b : Byte) : List Nat → Byte × Byte × State → Byte × Byte × State
  | [], a => a
  | c :: cs, (x0, y0, s) =>
    if b.getLsbD (7 - c) then
      let x1 := if m = .live then readV s x else x0
      let y1 := if m = .live then readV s y else y0
      let p := setPixel off s (wrap (x1.toNat + c) 64) (wrap (y1.toNat + r) 32)
      let t := if p.2 then writeV p.1 15 1 else p.1
      pseudoColumns off m x y r b cs (x1, y1, t)
    else pseudoColumns off m x y r b cs (x0, y0, s)

/-- The loop over the rows: `count` rows from row `r` on. -/
def pseudoRows (off : Bitmap → Nat → Nat → Bitmap × Bool) (m : DrawSampling) (x y : Reg) :
    (count r : Nat) → Byte × Byte × State → Except State State
  | 0, _, (_, _, s) => .ok s
  | count + 1, r, (x0, y0, s) =>
    match memRead s (s.i.toNat + r) with
    | .error t => .error t
    | .ok b =>
      pseudoRows off m x y count (r + 1)
        (pseudoColumns off m x y r b [0, 1, 2, 3, 4, 5, 6, 7] (x0, y0, s))

/-- The whole of DRW. -/
def pseudoDraw (off : Bitmap → Nat → Nat → Bitmap × Bool) (m : DrawSampling) (x y : Reg)
    (n : BitVec 4) (s : State) : Except State State :=
  pseudoRows off m x y n.toNat 0 (readV s x, readV s y, writeV s 15 0)

/-- Bit `c` from the left of the sprite row `r` is set (R236). -/
def SpriteBit (s : State) (r c : Nat) : Prop :=
  c < 8 ∧ (byteAt s (dataAddress s r)).getLsbD (7 - c) = true

/-- The sprite bit `(r, c)` of `DRW Vx, Vy, n` at `s` is set and falls on the pixel `(px, py)`, its corner
read before VF is cleared (R235, R236). -/
def DrawsOn (s : State) (x y : Reg) (n r c px py : Nat) : Prop :=
  r < n ∧ SpriteBit s r c ∧ px = wrap ((readV s x).toNat + c) 64 ∧ py = wrap ((readV s y).toNat + r) 32

/-- Every set bit of the sprite falls on the field (R235, R278). -/
def DrawsInField (s : State) (x y : Reg) (n : Nat) : Prop :=
  ∀ r c px py, DrawsOn s x y n r c px py → px < 64 ∧ py < 32

/-- Every row of the sprite is in memory (R236). -/
def SpriteInMemory (s : State) (n : Nat) : Prop := n = 0 ∨ dataAddress s (n - 1) ≤ 0xFFF

/-! The written-by column of R38, and of the fields it leaves to the other rules. -/

/-- The instructions that may write `V[r]` (R22, R38). LD Vx, K writes its register only on delivery. -/
def writesV : Instr → Reg → Bool
  | .ldImm x _, r | .ldReg x _, r | .addImm x _, r | .andReg x _, r | .orReg x _, r | .xorReg x _, r
  | .rnd x _, r | .readDt x, r => decide (r = x)
  | .addReg x _, r | .sub x _, r | .subn x _, r | .shr x _, r | .shl x _, r =>
    decide (r = x) || decide (r = flagReg)
  | .loadRegs x, r => decide (r ≤ x)
  | .drw _ _ _, r => decide (r = flagReg)
  | _, _ => false

/-- The instructions that may write `I` (R38). -/
def writesI : Instr → Bool
  | .ldI _ | .addI _ | .ldFont _ | .storeRegs _ | .loadRegs _ => true
  | _ => false

/-- The instructions whose executor may write PC; for every other the cycle alone moves it (R25). -/
def writesPc : Instr → Bool
  | .sys _ | .jp _ | .jpV0 _ | .call _ | .ret | .seImm _ _ | .sneImm _ _ | .seReg _ _ | .sneReg _ _
  | .skp _ | .sknp _ => true
  | _ => false

/-- The instructions that reach SP and the stack (R27, R38). -/
def writesStack : Instr → Bool
  | .call _ | .ret => true
  | _ => false

/-- The instructions that may write memory (R60, R64). -/
def writesMemory : Instr → Bool
  | .bcd _ | .storeRegs _ => true
  | _ => false

/-- The instructions that may change the display (R278). -/
def writesDisplay : Instr → Bool
  | .drw _ _ _ | .cls => true
  | _ => false

/-- The instructions whose results depend on the quirks (R312). -/
def readsQuirks : Instr → Bool
  | .shr _ _ | .shl _ _ | .storeRegs _ | .loadRegs _ => true
  | _ => false

end Sys2Proof.Machine
end

