-- ==== Sys2Proof/Certificates/Slice0/Obligations.lean ====
section
/-! DEFINITION. The statements for the provers. A clause `FrameV s t` and the like says what an
instruction leaves unchanged (Safety.lean). A statement about memory, V, I or the display after an
instruction has the absence of a fault as a premise or a conclusion (U4). -/

open Sys2Proof Sys2Proof.Machine

/-! ## Decoding and encoding -/

/-- A few words, written out from the spec's encodings, decode to what they stand for (R81, R91). -/
def Obligations.WordsOfTheSpecDecode : Prop :=
  decode 0x6005 = .ok (.ldImm 0 5) ∧ decode 0x6105 = .ok (.ldImm 1 5) ∧
  decode 0x8014 = .ok (.addReg 0 1) ∧ decode 0x00E0 = .ok .cls ∧ decode 0x00EE = .ok .ret ∧
  decode 0x0300 = .ok (.sys 0x300) ∧ decode 0xD125 = .ok (.drw 1 2 5) ∧
  decode 0xE19E = .ok (.skp 1) ∧ decode 0xF355 = .ok (.storeRegs 3) ∧ decode 0xF365 = .ok (.loadRegs 3)

/-- Family 0 keys on the low byte alone (R85) and family E on bit 0 alone (R87). -/
def Obligations.FamiliesZeroAndEDecode : Prop :=
  ∀ w : Word,
    (fieldOp w = 0x0 →
      decode w = if fieldKk w = 0xE0 then .ok .cls
        else if fieldKk w = 0xEE then .ok .ret else .ok (.sys (fieldNnn w))) ∧
    (fieldOp w = 0xE →
      decode w = if w.toNat % 2 = 0 then .ok (.skp (fieldX w)) else .ok (.sknp (fieldX w)))

/-- Family 8 keys on the low nibble; seven values are illegal (R86). -/
def Obligations.FamilyEightDecodes : Prop :=
  ∀ w : Word, fieldOp w = 0x8 →
    (fieldN w = 0x0 → decode w = .ok (.ldReg (fieldX w) (fieldY w))) ∧
    (fieldN w = 0x1 → decode w = .ok (.orReg (fieldX w) (fieldY w))) ∧
    (fieldN w = 0x2 → decode w = .ok (.andReg (fieldX w) (fieldY w))) ∧
    (fieldN w = 0x3 → decode w = .ok (.xorReg (fieldX w) (fieldY w))) ∧
    (fieldN w = 0x4 → decode w = .ok (.addReg (fieldX w) (fieldY w))) ∧
    (fieldN w = 0x5 → decode w = .ok (.sub (fieldX w) (fieldY w))) ∧
    (fieldN w = 0x6 → decode w = .ok (.shr (fieldX w) (fieldY w))) ∧
    (fieldN w = 0x7 → decode w = .ok (.subn (fieldX w) (fieldY w))) ∧
    (fieldN w = 0xE → decode w = .ok (.shl (fieldX w) (fieldY w))) ∧
    (8 ≤ (fieldN w).toNat → fieldN w ≠ 0xE → decode w = .error (.illegal w))

/-- Family F keys on the low byte (R88): the nine leaves of `F_DECODE = exact`, every other low byte
illegal; and the named alternative `nibble_tree`. -/
def Obligations.FamilyFDecodes : Prop :=
  ∀ w : Word, fieldOp w = 0xF →
    (decode w =
      if fieldKk w = 0x07 then .ok (.readDt (fieldX w))
      else if fieldKk w = 0x0A then .ok (.waitKey (fieldX w))
      else if fieldKk w = 0x15 then .ok (.writeDt (fieldX w))
      else if fieldKk w = 0x18 then .ok (.writeSt (fieldX w))
      else if fieldKk w = 0x1E then .ok (.addI (fieldX w))
      else if fieldKk w = 0x29 then .ok (.ldFont (fieldX w))
      else if fieldKk w = 0x33 then .ok (.bcd (fieldX w))
      else if fieldKk w = 0x55 then .ok (.storeRegs (fieldX w))
      else if fieldKk w = 0x65 then .ok (.loadRegs (fieldX w))
      else .error (.illegal w)) ∧
    (decodeWith .nibbleTree w =
      if fieldKk w = 0x07 then .ok (.readDt (fieldX w))
      else if fieldKk w = 0x0A then .ok (.waitKey (fieldX w))
      else if fieldKk w = 0x15 then .ok (.writeDt (fieldX w))
      else if fieldKk w = 0x18 then .ok (.writeSt (fieldX w))
      else if fieldKk w = 0x1E then .ok (.addI (fieldX w))
      else if (fieldY w).val = 0x2 then .ok (.ldFont (fieldX w))
      else if (fieldY w).val = 0x3 then .ok (.bcd (fieldX w))
      else if (fieldY w).val = 0x5 then .ok (.storeRegs (fieldX w))
      else if (fieldY w).val = 0x6 then .ok (.loadRegs (fieldX w))
      else .error (.illegal w))

/-- The other twelve families are one leaf each, whatever the remaining bits hold (R89). -/
def Obligations.SingleLeafFamiliesDecode : Prop :=
  ∀ w : Word,
    (fieldOp w = 0x1 → decode w = .ok (.jp (fieldNnn w))) ∧
    (fieldOp w = 0x2 → decode w = .ok (.call (fieldNnn w))) ∧
    (fieldOp w = 0x3 → decode w = .ok (.seImm (fieldX w) (fieldKk w))) ∧
    (fieldOp w = 0x4 → decode w = .ok (.sneImm (fieldX w) (fieldKk w))) ∧
    (fieldOp w = 0x5 → decode w = .ok (.seReg (fieldX w) (fieldY w))) ∧
    (fieldOp w = 0x6 → decode w = .ok (.ldImm (fieldX w) (fieldKk w))) ∧
    (fieldOp w = 0x7 → decode w = .ok (.addImm (fieldX w) (fieldKk w))) ∧
    (fieldOp w = 0x9 → decode w = .ok (.sneReg (fieldX w) (fieldY w))) ∧
    (fieldOp w = 0xA → decode w = .ok (.ldI (fieldNnn w))) ∧
    (fieldOp w = 0xB → decode w = .ok (.jpV0 (fieldNnn w))) ∧
    (fieldOp w = 0xC → decode w = .ok (.rnd (fieldX w) (fieldKk w))) ∧
    (fieldOp w = 0xD → decode w = .ok (.drw (fieldX w) (fieldY w) (fieldN w)))

/-- Decoding the word of a well-formed instruction gives it back, with every operand (R91). -/
def Obligations.DecodeOfEncodeIsTheInstruction : Prop :=
  ∀ i : Instr, i.wellFormed = true → decode (encode i) = .ok i

/-- What a word decodes to is well-formed and fits its row of the opcode map (R84, R91). -/
def Obligations.DecodedInstructionFitsItsRow : Prop :=
  ∀ (w : Word) (i : Instr), decode w = .ok i → i.wellFormed = true ∧ w &&& tableMask i = tableMatch i

/-- The words the decoder refuses are exactly the list of R92, each under its own name. -/
def Obligations.RefusedWordsAreTheIllegalOnes : Prop :=
  ∀ (w : Word) (e : DecodeError),
    decode w = .error e ↔
      e = .illegal w ∧
        ((fieldOp w = 0x8 ∧ 8 ≤ (fieldN w).toNat ∧ fieldN w ≠ 0xE) ∨
          (fieldOp w = 0xF ∧
            fieldKk w ∉ ([0x07, 0x0A, 0x15, 0x18, 0x1E, 0x29, 0x33, 0x55, 0x65] : List Byte)))

/-! ## Memory, stack and fetch -/

/-- `MemRead` and `MemWrite` (R61, R62): inside memory a read gives the byte and a write changes that byte
alone; outside, the fault with the address is raised and nothing is read or written. -/
def Obligations.MemoryAccessRules : Prop :=
  ∀ (s : State) (a : Nat) (b : Byte), MemoryOk s → NoFault s →
    (a ≤ 0xFFF → memRead s a = .ok (byteAt s a) ∧
      ∃ t, memWrite s a b = .ok t ∧ t = { s with mem := t.mem } ∧
        ∀ j, byteAt t j = if j = a then b else byteAt s j) ∧
    (0xFFF < a → memRead s a = .error { s with fault := some (.memOutOfRange a) } ∧
      memWrite s a b = .error { s with fault := some (.memOutOfRange a) })

/-- `Push` and `Pop` with their faults, and a pop after a push gives the word back (R28). -/
def Obligations.StackRules : Prop :=
  ∀ (s : State) (w : Word), NoFault s →
    (s.sp.val < 16 → ∃ t, push s w = .ok t ∧ t = { s with stack := t.stack, sp := t.sp } ∧
      t.sp.val = s.sp.val + 1 ∧
      (∀ k (h : k < 16), t.stack[k] = if k = s.sp.val then w else s.stack[k]) ∧
      pop t = .ok (w, { t with sp := s.sp })) ∧
    (s.sp.val = 16 → push s w = .error { s with fault := some (.stackOverflow s.pc) }) ∧
    (∀ k (h : k < 16), s.sp.val = k + 1 →
      ∃ t, pop s = .ok (s.stack[k], t) ∧ t.sp.val = k ∧ t = { s with sp := t.sp }) ∧
    (s.sp.val = 0 → pop s = .error { s with fault := some (.stackUnderflow s.pc) })

/-- `Fetch` (R66), under either setting of ALLOW_ODD_PC: alignment first, then the range of the first
byte, then of the second, then the big-endian word. The core's own setting is `false`. -/
def Obligations.FetchRule : Prop :=
  (∀ s : State, fetch s = fetchWith false s) ∧
  ∀ (s : State) (allowOdd : Bool), NoFault s →
    (s.pc.toNat % 2 = 1 → allowOdd = false →
      fetchWith allowOdd s = .error { s with fault := some (.misalignedFetch s.pc) }) ∧
    (s.pc.toNat % 2 = 0 ∨ allowOdd = true →
      (0xFFF < s.pc.toNat →
        fetchWith allowOdd s = .error { s with fault := some (.memOutOfRange s.pc.toNat) }) ∧
      (s.pc.toNat = 0xFFF →
        fetchWith allowOdd s = .error { s with fault := some (.memOutOfRange 0x1000) }) ∧
      (s.pc.toNat ≤ 0xFFE → ∃ w, fetchWith allowOdd s = .ok w ∧
        w.toNat = (byteAt s s.pc.toNat).toNat * 256 + (byteAt s (s.pc.toNat + 1)).toNat))

/-- A write to memory is seen by the very next fetch (R72). -/
def Obligations.FetchSeesTheLatestWrite : Prop :=
  ∀ (s t : State) (a : Nat) (b : Byte), MemoryOk s → memWrite s a b = .ok t →
    s.pc.toNat % 2 = 0 → s.pc.toNat ≤ 0xFFE →
    fetch t = .ok (wordOfBytes (if a = s.pc.toNat then b else byteAt s s.pc.toNat)
      (if a = s.pc.toNat + 1 then b else byteAt s (s.pc.toNat + 1)))

/-! ## Faults -/

/-- A fault is recorded once, ends the instruction with PC still at it, and ends the batch and the tick
with no timer decrement (R261). -/
def Obligations.RaiseEndsInstructionAndTick : Prop :=
  (∀ s f, NoFault s → raise s f = { s with fault := some f }) ∧
  (∀ s f g, s.fault = some g → raise s f = s) ∧
  (∀ s t n, executes s = true → cycle s = .next t → t.fault ≠ none →
    t.pc = s.pc ∧ batch (n + 1) s = .next t) ∧
  (∀ s t, executes s = true → batch 10 s = .next t → t.fault ≠ none → runTick s = .next t)

/-- A fault is fatal and sticky: the core executes nothing more, a later fault is not recorded, and no
instruction and no host operation, `reset()` included, clears it (R34, R262). The clauses on `step` are
about the model's step by cycles (log 1). -/
def Obligations.FaultIsSticky : Prop :=
  ∀ (s : State) (f : Fault), s.fault = some f →
    (∀ g, raise s g = s) ∧
    cycle s = .next s ∧ runTick s = .next s ∧ (s.tickPos = 0 → step s = .next s) ∧
    (∀ t, step s = .next t → t.fault = some f) ∧
    (∀ i t, exec i s = .next t → t.fault = some f) ∧
    (∀ op t, hostCall op s = .next t → t.fault = some f)

/-! ## Control flow -/

/-- SYS, JP and JP V0 write PC and nothing else; the sum of JP V0 is not masked (R120, R121, R122). -/
def Obligations.JumpsWritePc : Prop :=
  ∀ (nnn : Addr12) (s : State),
    (∃ t, exec (.sys nnn) s = .next t ∧ t.pc.toNat = nnn.toNat ∧ t.pcSet = true ∧ FramePc s t) ∧
    (∃ t, exec (.jp nnn) s = .next t ∧ t.pc.toNat = nnn.toNat ∧ t.pcSet = true ∧ FramePc s t) ∧
    (∃ t, exec (.jpV0 nnn) s = .next t ∧ t.pc.toNat = (nnn.toNat + (readV s 0).toNat) % 65536 ∧
      t.pcSet = true ∧ FramePc s t)

/-- CALL pushes the address of the next instruction and jumps; with 16 entries it faults and writes
neither the stack nor PC (R123). -/
def Obligations.CallPushesTheNextAddress : Prop :=
  ∀ (nnn : Addr12) (s : State),
    (s.sp.val < 16 → ∃ t, exec (.call nnn) s = .next t ∧ t.pc.toNat = nnn.toNat ∧ t.pcSet = true ∧
      t.sp.val = s.sp.val + 1 ∧
      (∀ k (h : k < 16), t.stack[k] = if k = s.sp.val then s.pc + 2 else s.stack[k]) ∧
      FramePcStack s t) ∧
    (NoFault s → s.sp.val = 16 →
      exec (.call nnn) s = .next { s with fault := some (.stackOverflow s.pc) })

/-- RET pops the newest return address into PC, and the popped entry stays in the array; with no entry
it faults and does not write PC (R124). -/
def Obligations.ReturnPopsIntoPc : Prop :=
  ∀ s : State,
    (∀ k (h : k < 16), s.sp.val = k + 1 → ∃ t, exec .ret s = .next t ∧ t.pc = s.stack[k] ∧
      t.pcSet = true ∧ t.sp.val = k ∧ t.stack = s.stack ∧ FramePcStack s t) ∧
    (NoFault s → s.sp.val = 0 →
      exec .ret s = .next { s with fault := some (.stackUnderflow s.pc) })

/-- A RET that finds the stack as a CALL left it goes to the instruction after the CALL (R123, R124). -/
def Obligations.ReturnGoesBehindItsCall : Prop :=
  ∀ (nnn : Addr12) (s : State), s.sp.val < 16 →
    ∃ t, exec (.call nnn) s = .next t ∧
      ∀ t', t'.stack = t.stack → t'.sp = t.sp →
        ∃ u, exec .ret t' = .next u ∧ u.pc = s.pc + 2 ∧ u.sp = s.sp

/-- The four skips: PC + 4 when the condition holds, nothing written when it does not (R125-R128). -/
def Obligations.SkipsOnTheirCondition : Prop :=
  ∀ (x y : Reg) (kk : Byte) (s : State),
    (exec (.seImm x kk) s
      = .next (if readV s x = kk then { s with pc := s.pc + 4, pcSet := true } else s)) ∧
    (exec (.sneImm x kk) s
      = .next (if readV s x = kk then s else { s with pc := s.pc + 4, pcSet := true })) ∧
    (exec (.seReg x y) s
      = .next (if readV s x = readV s y then { s with pc := s.pc + 4, pcSet := true } else s)) ∧
    (exec (.sneReg x y) s
      = .next (if readV s x = readV s y then s else { s with pc := s.pc + 4, pcSet := true }))

/-! ## Load and move -/

/-- LD Vx, kk and LD Vx, Vy write V[x] alone; LD I, nnn writes I alone; with their encodings
(R150, R151, R152). -/
def Obligations.LoadsAndMoves : Prop :=
  EncodedXKK 0x6 .ldImm ∧ Encoded8 0x0 .ldReg ∧ EncodedA 0xA .ldI ∧
  ∀ (x y : Reg) (kk : Byte) (nnn : Addr12) (s : State),
    (∃ t, exec (.ldImm x kk) s = .next t ∧ readV t x = kk ∧
      (∀ r, r ≠ x → readV t r = readV s r) ∧ FrameV s t) ∧
    (∃ t, exec (.ldReg x y) s = .next t ∧ readV t x = readV s y ∧
      (∀ r, r ≠ x → readV t r = readV s r) ∧ FrameV s t) ∧
    (∃ t, exec (.ldI nnn) s = .next t ∧ t.i.toNat = nnn.toNat ∧ FrameI s t)

/-! ## Arithmetic, logic, shifts, random -/

/-- ADD Vx, kk: the sum modulo 256 and no flag (R161). -/
def Obligations.AddImmediateSetsNoFlag : Prop :=
  EncodedXKK 0x7 .addImm ∧
  ∀ (x : Reg) (kk : Byte) (s : State), ∃ t, exec (.addImm x kk) s = .next t ∧
    (readV t x).toNat = ((readV s x).toNat + kk.toNat) % 256 ∧
    (∀ r, r ≠ x → readV t r = readV s r) ∧ FrameV s t

/-- ADD Vx, Vy: the sum modulo 256, then the carry into VF, which wins when x = 15 (R22, R162). -/
def Obligations.AddSetsCarry : Prop :=
  Encoded8 0x4 .addReg ∧
  ∀ (x y : Reg) (s : State), ∃ t, exec (.addReg x y) s = .next t ∧
    readV t 15 = (if 255 < (readV s x).toNat + (readV s y).toNat then 1 else 0) ∧
    (x ≠ 15 → (readV t x).toNat = ((readV s x).toNat + (readV s y).toNat) % 256) ∧
    (∀ r, r ≠ x → r ≠ 15 → readV t r = readV s r) ∧ FrameV s t

/-- SUB and SUBN: the difference modulo 256, then no-borrow into VF, which wins when x = 15
(R163, R164). -/
def Obligations.SubtractsSetNoBorrow : Prop :=
  Encoded8 0x5 .sub ∧ Encoded8 0x7 .subn ∧
  ∀ (x y : Reg) (s : State),
    (∃ t, exec (.sub x y) s = .next t ∧
      readV t 15 = (if (readV s y).toNat ≤ (readV s x).toNat then 1 else 0) ∧
      (x ≠ 15 → (readV t x).toNat = ((readV s x).toNat + 256 - (readV s y).toNat) % 256) ∧
      (∀ r, r ≠ x → r ≠ 15 → readV t r = readV s r) ∧ FrameV s t) ∧
    (∃ t, exec (.subn x y) s = .next t ∧
      readV t 15 = (if (readV s x).toNat ≤ (readV s y).toNat then 1 else 0) ∧
      (x ≠ 15 → (readV t x).toNat = ((readV s y).toNat + 256 - (readV s x).toNat) % 256) ∧
      (∀ r, r ≠ x → r ≠ 15 → readV t r = readV s r) ∧ FrameV s t)

/-- AND, OR and XOR work bit by bit and set no flag (R165, R166, R167). -/
def Obligations.LogicSetsNoFlag : Prop :=
  Encoded8 0x2 .andReg ∧ Encoded8 0x1 .orReg ∧ Encoded8 0x3 .xorReg ∧
  ∀ (x y : Reg) (s : State),
    (∃ t, exec (.andReg x y) s = .next t ∧
      (∀ b, (readV t x).getLsbD b = ((readV s x).getLsbD b && (readV s y).getLsbD b)) ∧
      (∀ r, r ≠ x → readV t r = readV s r) ∧ FrameV s t) ∧
    (∃ t, exec (.orReg x y) s = .next t ∧
      (∀ b, (readV t x).getLsbD b = ((readV s x).getLsbD b || (readV s y).getLsbD b)) ∧
      (∀ r, r ≠ x → readV t r = readV s r) ∧ FrameV s t) ∧
    (∃ t, exec (.xorReg x y) s = .next t ∧
      (∀ b, (readV t x).getLsbD b = ((readV s x).getLsbD b ^^ (readV s y).getLsbD b)) ∧
      (∀ r, r ≠ x → readV t r = readV s r) ∧ FrameV s t)

/-- ADD I, Vx wraps modulo 65536 and sets no flag (R168); LD F, Vx points I at five times the whole byte
(R193). -/
def Obligations.IndexArithmetic : Prop :=
  EncodedF 0x1E .addI ∧ EncodedF 0x29 .ldFont ∧
  ∀ (x : Reg) (s : State),
    (∃ t, exec (.addI x) s = .next t ∧ t.i.toNat = (s.i.toNat + (readV s x).toNat) % 65536 ∧
      FrameI s t) ∧
    (∃ t, exec (.ldFont x) s = .next t ∧ t.i.toNat = (readV s x).toNat * 5 ∧ FrameI s t)

/-- SHR and SHL shift the source that quirk (b) selects by one, into V[x]; then the bit shifted out goes
to VF, which wins when x = 15 (R32, R169, R170). -/
def Obligations.ShiftsFromTheQuirkSource : Prop :=
  Encoded8 0x6 .shr ∧ Encoded8 0xE .shl ∧
  ∀ (x y : Reg) (s : State) (source : Byte),
    source = (if s.qShiftVy = true then readV s y else readV s x) →
    (∃ t, exec (.shr x y) s = .next t ∧ (readV t 15).toNat = source.toNat % 2 ∧
      (x ≠ 15 → (readV t x).toNat = source.toNat / 2) ∧
      (∀ r, r ≠ x → r ≠ 15 → readV t r = readV s r) ∧ FrameV s t) ∧
    (∃ t, exec (.shl x y) s = .next t ∧ (readV t 15).toNat = source.toNat / 128 ∧
      (x ≠ 15 → (readV t x).toNat = source.toNat * 2 % 256) ∧
      (∀ r, r ≠ x → r ≠ 15 → readV t r = readV s r) ∧ FrameV s t)

/-- RND takes a fresh free draw and masks it (R171); the draw is the free value of log 6. -/
def Obligations.RandomIsAMaskedFreshDraw : Prop :=
  ∀ (x : Reg) (kk : Byte) (s : State), ∃ t, exec (.rnd x kk) s = .next t ∧
    readV t x = Config.randomByte s.draws &&& kk ∧ t.draws = s.draws + 1 ∧
    (∀ r, r ≠ x → readV t r = readV s r) ∧ FrameVDraws s t

/-! ## Memory transfer -/

/-- BCD stores the three digits at I, I + 1, I + 2, leaves I, and faults at the first address above
0xFFF (R190). -/
def Obligations.BcdStoresDecimalDigits : Prop :=
  ∀ (x : Reg) (s : State), MemoryOk s →
    (dataAddress s 2 ≤ 0xFFF → ∃ t, exec (.bcd x) s = .next t ∧
      (byteAt t (dataAddress s 0)).toNat = (readV s x).toNat / 100 ∧
      (byteAt t (dataAddress s 1)).toNat = (readV s x).toNat / 10 % 10 ∧
      (byteAt t (dataAddress s 2)).toNat = (readV s x).toNat % 10 ∧
      (∀ a, a < dataAddress s 0 ∨ dataAddress s 2 < a → byteAt t a = byteAt s a) ∧
      t = { s with mem := t.mem }) ∧
    (NoFault s → 0xFFF < dataAddress s 2 → ∃ t, exec (.bcd x) s = .next t ∧
      t.fault = some (.memOutOfRange (max (dataAddress s 0) 0x1000)) ∧ t.pc = s.pc)

/-- Block store writes V0..Vx from I on, advances I only under quirk (a), and faults at the first address
above 0xFFF (R31, R191). -/
def Obligations.BlockStoreWritesRegisters : Prop :=
  ∀ (x : Reg) (s : State), MemoryOk s →
    (dataAddress s x.val ≤ 0xFFF → ∃ t, exec (.storeRegs x) s = .next t ∧
      (∀ k : Reg, k ≤ x → byteAt t (dataAddress s k.val) = readV s k) ∧
      (∀ a, a < dataAddress s 0 ∨ dataAddress s x.val < a → byteAt t a = byteAt s a) ∧
      t.i.toNat = (if s.qIncI = true then (s.i.toNat + x.val + 1) % 65536 else s.i.toNat) ∧
      t = { s with mem := t.mem, i := t.i }) ∧
    (NoFault s → 0xFFF < dataAddress s x.val → ∃ t, exec (.storeRegs x) s = .next t ∧
      t.fault = some (.memOutOfRange (max (dataAddress s 0) 0x1000)) ∧ t.pc = s.pc)

/-- Block load reads V0..Vx from I on, advances I only under quirk (a), and faults at the first address
above 0xFFF (R31, R192). -/
def Obligations.BlockLoadReadsRegisters : Prop :=
  ∀ (x : Reg) (s : State),
    (dataAddress s x.val ≤ 0xFFF → ∃ t, exec (.loadRegs x) s = .next t ∧
      (∀ k : Reg, k ≤ x → readV t k = byteAt s (dataAddress s k.val)) ∧
      (∀ k : Reg, x < k → readV t k = readV s k) ∧
      t.i.toNat = (if s.qIncI = true then (s.i.toNat + x.val + 1) % 65536 else s.i.toNat) ∧
      FrameVI s t) ∧
    (NoFault s → 0xFFF < dataAddress s x.val → ∃ t, exec (.loadRegs x) s = .next t ∧
      t.fault = some (.memOutOfRange (max (dataAddress s 0) 0x1000)) ∧ t.pc = s.pc)

/-- A block load through the region a block store wrote gives V0..Vx back, whatever the V registers held
in between (R191, R192). -/
def Obligations.BlockStoreThenLoadRoundTrips : Prop :=
  ∀ (x : Reg) (s : State), MemoryOk s → dataAddress s x.val ≤ 0xFFF →
    ∃ t, exec (.storeRegs x) s = .next t ∧
      ∀ t', t'.mem = t.mem → t'.i = s.i →
        ∃ u, exec (.loadRegs x) t' = .next u ∧ ∀ k : Reg, k ≤ x → readV u k = readV s k

/-! ## Timers -/

/-- LD Vx, DT; LD DT, Vx; LD ST, Vx (R210, R211, R212). -/
def Obligations.TimerInstructions : Prop :=
  ∀ (x : Reg) (s : State),
    (∃ t, exec (.readDt x) s = .next t ∧ readV t x = s.dt ∧
      (∀ r, r ≠ x → readV t r = readV s r) ∧ FrameV s t) ∧
    (∃ t, exec (.writeDt x) s = .next t ∧ t.dt = readV s x ∧ FrameDt s t) ∧
    (∃ t, exec (.writeSt x) s = .next t ∧ t.st = readV s x ∧ FrameSt s t)

/-- The timer engine: each timer loses 1 and stops at 0, once per tick, after the batch (R275); the sound
output is active while ST is not 0 (R280). -/
def Obligations.TimersStopAtZero : Prop :=
  ∀ s : State,
    (∀ t, executes s = true → batch 10 s = .next t → NoFault t →
      runTick s = .next (timerDecrement t)) ∧
    (timerDecrement s).dt.toNat = s.dt.toNat - 1 ∧ (timerDecrement s).st.toNat = s.st.toNat - 1 ∧
    timerDecrement s = { s with dt := (timerDecrement s).dt, st := (timerDecrement s).st } ∧
    (soundActive s = true ↔ 0 < s.st.toNat)

/-! ## Keyboard -/

/-- SKP and SKNP test the key V[x], skip on it, and fault on a value above 15 (R220, R221). -/
def Obligations.KeySkips : Prop :=
  ∀ (x : Reg) (s : State),
    (∀ k : Fin 16, k.val = (readV s x).toNat →
      exec (.skp x) s
        = .next (if s.keysDown[k] = true then { s with pc := s.pc + 4, pcSet := true } else s) ∧
      exec (.sknp x) s
        = .next (if s.keysDown[k] = true then s else { s with pc := s.pc + 4, pcSet := true })) ∧
    (NoFault s → 15 < (readV s x).toNat →
      exec (.skp x) s = .next { s with fault := some (.keyIndexOutOfRange (readV s x)) } ∧
      exec (.sknp x) s = .next { s with fault := some (.keyIndexOutOfRange (readV s x)) })

/-- LD Vx, K starts a wait in which the core executes nothing; the delivery that finds the core neither
faulted nor halted writes the key code into V[x] and ends the wait (R222). -/
def Obligations.WaitForKey : Prop :=
  ∀ (x : Reg) (s : State), ∃ t, exec (.waitKey x) s = .next t ∧ t.keyWait = some x ∧
    FrameKeyWait s t ∧ executes t = false ∧
    ∀ (t' : State) (k : Fin 16), t'.keyWait = t.keyWait → NoFault t' → t'.halted = false →
      (readV (acceptKey k t') x).toNat = k.val ∧
      (∀ r, r ≠ x → readV (acceptKey k t') r = readV t' r) ∧
      (acceptKey k t').keyWait = none ∧ executes (acceptKey k t') = true

/-- A key press delivered between ticks (R272). -/
def Obligations.KeyDelivery : Prop :=
  ∀ (s : State) (k : Nat), s.tickPos = 0 →
    (15 < k → hostCall (.deliverKeyPress k) s = .refused .keyOutOfRange) ∧
    (k ≤ 15 → s.fault ≠ none ∨ s.halted = true ∨ s.keyWait = none →
      hostCall (.deliverKeyPress k) s = .next s) ∧
    (∀ x, k ≤ 15 → NoFault s → s.halted = false → s.keyWait = some x →
      hostCall (.deliverKeyPress k) s
        = .next { writeV s x (BitVec.ofNat 8 k) with keyWait := none })

/-! ## Display -/

/-- DRW does what its pseudocode does, with the wrap of R235, for every operand, both settings of
DRAW_XY_SAMPLING and every DISPLAY_OFF_FIELD (R235, R236). -/
def Obligations.DrawFollowsItsPseudocode : Prop :=
  (∀ w : Word, fieldOp w = 0xD → decode w = .ok (.drw (fieldX w) (fieldY w) (fieldN w))) ∧
  (∀ c size, wrap c size = if c > size then c - size else c) ∧
  (∀ off m x y n s, drawSprite off m x y n s = pseudoDraw off m x y n s) ∧
  (∀ x y n s,
    exec (.drw x y n) s = settle (pseudoDraw Config.displayOffField Config.drawXySampling x y n s))

/-- DRW with every row in memory goes on and changes only VF, to 0 or 1, and the display; with a row
outside memory it faults at the first such address (R236, R264). -/
def Obligations.DrawCompletesInsideMemory : Prop :=
  ∀ (x y : Reg) (n : BitVec 4) (s : State),
    (SpriteInMemory s n.toNat → ∃ t, exec (.drw x y n) s = .next t ∧
      (readV t 15 = 0 ∨ readV t 15 = 1) ∧ (∀ r, r ≠ 15 → readV t r = readV s r) ∧
      FrameVBitmap s t) ∧
    (n = 0 → ∃ t, exec (.drw x y n) s = .next t ∧ readV t 15 = 0 ∧ t.bitmap = s.bitmap) ∧
    (NoFault s → ¬SpriteInMemory s n.toNat → ∃ t, exec (.drw x y n) s = .next t ∧
      t.fault = some (.memOutOfRange (max (dataAddress s 0) 0x1000)) ∧ t.pc = s.pc)

/-- DRW toggles exactly the pixels its set bits fall on and sets VF to 1 exactly when one of them was on,
for a sprite inside memory and inside the field. Where x or y is 15 this needs the corner to be read
before VF is cleared, which the spec leaves open (log 8) (R235, R236, R278). -/
def Obligations.DrawTogglesExactlyTheSprite : Prop :=
  ∀ (x y : Reg) (n : BitVec 4) (s : State),
    Config.drawXySampling = .latched ∨ (x ≠ 15 ∧ y ≠ 15) →
    SpriteInMemory s n.toNat → DrawsInField s x y n.toNat →
    ∃ t, exec (.drw x y n) s = .next t ∧
      (∀ px py, px < 64 → py < 32 →
        ((∃ r c, DrawsOn s x y n.toNat r c px py) →
          Bitmap.pixel t.bitmap px py = !Bitmap.pixel s.bitmap px py) ∧
        ((¬∃ r c, DrawsOn s x y n.toNat r c px py) →
          Bitmap.pixel t.bitmap px py = Bitmap.pixel s.bitmap px py)) ∧
      ((∃ r c px py, DrawsOn s x y n.toNat r c px py ∧ Bitmap.pixel s.bitmap px py = true) →
        readV t 15 = 1) ∧
      ((¬∃ r c px py, DrawsOn s x y n.toNat r c px py ∧ Bitmap.pixel s.bitmap px py = true) →
        readV t 15 = 0)

/-- Drawing a sprite twice at one place leaves the display as it was, and the second draw collides exactly
when the first turned a pixel on. The corner registers are not VF, which the first draw changes (R236). -/
def Obligations.DrawTwiceRestoresTheDisplay : Prop :=
  ∀ (x y : Reg) (n : BitVec 4) (s : State), x ≠ 15 → y ≠ 15 →
    SpriteInMemory s n.toNat → DrawsInField s x y n.toNat →
    ∃ t u, exec (.drw x y n) s = .next t ∧ exec (.drw x y n) t = .next u ∧ u.bitmap = s.bitmap ∧
      (readV u 15 = 1 ↔
        ∃ r c px py, DrawsOn s x y n.toNat r c px py ∧ Bitmap.pixel s.bitmap px py = false)

/-- The display port, and CLS, which turns every pixel off and changes nothing else (R237, R278). -/
def Obligations.DisplayPortAndClear : Prop :=
  (∀ w : Word, fieldOp w = 0x0 → fieldKk w = 0xE0 → decode w = .ok .cls) ∧
  ∀ s : State,
    (∃ t, exec .cls s = .next t ∧ (∀ px py, Bitmap.pixel t.bitmap px py = false) ∧ FrameBitmap s t) ∧
    (∀ off px py, px < 64 ∧ py < 32 → ∃ t, setPixel off s px py = (t, Bitmap.pixel s.bitmap px py) ∧
      (∀ qx qy, Bitmap.pixel t.bitmap qx qy =
        if qx = px ∧ qy = py then !Bitmap.pixel s.bitmap px py else Bitmap.pixel s.bitmap qx qy) ∧
      FrameBitmap s t) ∧
    (∀ off px py, ¬(px < 64 ∧ py < 32) →
      setPixel off s px py = ({ s with bitmap := (off s.bitmap px py).1 }, (off s.bitmap px py).2))

/-! ## The cycle, the tick, the step -/

/-- One cycle (R273): a no-op unless the core executes; a fetch fault, an illegal word, or the executed
instruction with PC advanced by 2 when the executor neither faulted nor wrote it (R25). -/
def Obligations.CycleRule : Prop :=
  ∀ s : State,
    (executes s = true ↔ s.fault = none ∧ s.halted = false ∧ s.keyWait = none) ∧
    (executes s = false → cycle s = .next s) ∧
    (executes s = true → ∀ t, fetch s = .error t → cycle s = .next t) ∧
    (executes s = true → ∀ w e, fetch s = .ok w → decode w = .error e →
      cycle s = .next { s with fault := some (.illegalInstruction w s.pc) }) ∧
    (executes s = true → ∀ w i t, fetch s = .ok w → decode w = .ok i →
      exec i { s with pcSet := false } = .next t →
      cycle s = .next (if t.fault = none ∧ t.pcSet = false then { t with pc := t.pc + 2 } else t))

/-- A step runs the decoded instruction: when the core executes and the two bytes at an aligned PC decode
to an instruction, the step is its execution, then the cycle's advance of PC, then the tick's bookkeeping
(log 1): a fault ends the tick, the tenth cycle ends it with the timer decrement (R273, R274). -/
def Obligations.StepRunsTheDecodedInstruction : Prop :=
  (∀ (s : State) (i : Instr), executes s = true → s.pc.toNat % 2 = 0 → s.pc.toNat ≤ 0xFFE →
    decodeBytes [byteAt s s.pc.toNat, byteAt s (s.pc.toNat + 1)] = .ok (i, []) →
    ∀ t, exec i { s with pcSet := false } = .next t → step s = .next (afterCycle (advance t))) ∧
  (∀ t : State, advance t
    = if t.fault = none ∧ t.pcSet = false then { t with pc := t.pc + 2 } else t) ∧
  (∀ t : State, afterCycle t
    = if t.fault ≠ none then { t with tickPos := 0 }
      else if 9 ≤ t.tickPos then timerDecrement { t with tickPos := 0 }
      else { t with tickPos := t.tickPos + 1 })

/-- An instruction placed with `withFetchWord` is fetched and run by the next step (log 3). -/
def Obligations.PlacedWordIsRunNext : Prop :=
  ∀ (s : State) (w : Nat) (i : Instr), MemoryOk s → s.pc.toNat % 2 = 0 → s.pc.toNat ≤ 0xFFE →
    decodeTableWord 16 w = some i →
    fetch (s.withFetchWord 16 w) = .ok (BitVec.ofNat 16 w) ∧
    ∀ t, exec i { s.withFetchWord 16 w with pcSet := false } = .next t →
      step (s.withFetchWord 16 w) = .next (afterCycle (advance t))

/-- Ten steps from the start of a tick are one `run_tick()`, whatever happens in between: a fault, a wait
for a key, a core that executes nothing (R274; the step by cycles is log 1). -/
def Obligations.TenStepsAreOneTick : Prop :=
  ∀ s : State, s.tickPos = 0 → Host.Core.run Sys2Proof.core 10 s = runTick s

/-- No instruction and no step stops the machine: each answers a next state (R262; log 4). -/
def Obligations.EveryStepGoesOn : Prop :=
  (∀ (i : Instr) (s : State), ∃ t, exec i s = .next t) ∧ (∀ s : State, ∃ t, step s = .next t)

/-- Halted, waiting for a key or faulted, the core does nothing in a tick, nor in a step (log 1), the
timers included (R274, R284). -/
def Obligations.WaitingCoreStandsStill : Prop :=
  ∀ s : State, s.tickPos = 0 → s.fault ≠ none ∨ s.halted = true ∨ s.keyWait ≠ none →
    runTick s = .next s ∧ step s = .next s

/-! ## Invariants -/

/-- Every step keeps memory in canonical form. -/
def Obligations.StepKeepsMemoryCanonical : Prop :=
  ∀ s t : State, MemoryOk s → step s = .next t → MemoryOk t

/-- Every step keeps the fault record true of the state it stopped, and the tick position, which is the
model's own (log 1), inside a tick (R260, R261, R274). -/
def Obligations.StepKeepsFaultRecordAndTick : Prop :=
  ∀ s t : State, FaultAgrees s → TickOk s → step s = .next t → FaultAgrees t ∧ TickOk t

/-- The invariants hold at reset. The clause `TickOk` is the model's own: it rests on the reset value of
the tick position (log 1); the others follow from R37. -/
def Obligations.ResetMeetsTheInvariants : Prop :=
  MemoryOk State.reset ∧ FaultAgrees State.reset ∧ TickOk State.reset

/-! ## Reset and the host -/

/-- What the spec says holds after the first `reset()`, for either setting of its open parameters
(R37, R300, R301). `State.reset` also holds the model's own values of the quirks, the display, the keys and
its two counters (logs 11, 14, 15, 6, 1), which `reset()` keeps as they were constructed. -/
def Obligations.FirstResetLeavesTheResetState : Prop :=
  (∀ regs clears, resetWith regs clears State.constructed = State.reset) ∧
  hostReset State.constructed = State.reset ∧
  State.reset.pc = 0x200 ∧ State.reset.halted = true ∧ State.reset.keyWait = none ∧
  State.reset.fault = none ∧ State.reset.pcSet = false ∧ (∀ r, readV State.reset r = 0) ∧
  State.reset.i = 0 ∧ State.reset.sp = 0 ∧ (∀ k (h : k < 16), State.reset.stack[k] = 0) ∧
  State.reset.dt = 0 ∧ State.reset.st = 0 ∧ (∀ a, byteAt State.reset a = 0)

/-- `reset()` (R301): PC and the mode always, the registers and the wait as its two parameters say, and
nothing else of the core; `pc_set` is false afterwards (R37). That the display, the keys and the model's
two counters stay is the model's choice (logs 14, 15, 6, 1). -/
def Obligations.ResetOperation : Prop :=
  (∀ s, s.tickPos = 0 → hostCall .reset s
    = .next (resetWith Config.resetClearsRegs Config.resetClearsKeyWait s)) ∧
  ∀ (regs : ResetRegs) (clears : Bool) (s t : State), resetWith regs clears s = t →
    t.pc = 0x200 ∧ t.halted = true ∧ t.pcSet = false ∧
    t.keyWait = (if clears = true then none else s.keyWait) ∧
    (regs = .zero → (∀ r, readV t r = 0) ∧ t.i = 0 ∧ t.sp = 0 ∧
      (∀ k (h : k < 16), t.stack[k] = 0) ∧ t.dt = 0 ∧ t.st = 0) ∧
    (regs = .retain → t.v = s.v ∧ t.i = s.i ∧ t.sp = s.sp ∧ t.stack = s.stack ∧
      t.dt = s.dt ∧ t.st = s.st) ∧
    t.mem = s.mem ∧ t.qIncI = s.qIncI ∧ t.qShiftVy = s.qShiftVy ∧ t.fault = s.fault ∧
    t.bitmap = s.bitmap ∧ t.keysDown = s.keysDown ∧ t.draws = s.draws ∧ t.tickPos = s.tickPos

/-- The mode from its two fields, in which alone the core executes, and `halt()` and `resume()`, which
write `halted` alone (R33, R270, R271). -/
def Obligations.ModeHaltAndResume : Prop :=
  ∀ s : State,
    (mode s = .halted ↔ s.halted = true) ∧
    (mode s = .blockedOnKey ↔ s.halted = false ∧ s.keyWait ≠ none) ∧
    (mode s = .running ↔ s.halted = false ∧ s.keyWait = none) ∧
    (executes s = true ↔ NoFault s ∧ mode s = .running) ∧
    (s.tickPos = 0 → hostCall .halt s = .next { s with halted := true } ∧
      hostCall .resume s = .next { s with halted := false })

/-- `load_program` writes the image from 0x200 on and nothing else, and refuses one over 3584 bytes
(R302). -/
def Obligations.LoadProgramWritesTheImage : Prop :=
  ∀ (bytes : List Byte) (s : State), s.tickPos = 0 → MemoryOk s →
    (bytes.length ≤ 3584 → ∃ t, hostCall (.loadProgram bytes) s = .next t ∧
      (∀ k (h : k < bytes.length), byteAt t (0x200 + k) = bytes[k]) ∧
      (∀ a, a < 0x200 ∨ 0x200 + bytes.length ≤ a → byteAt t a = byteAt s a) ∧
      t = { s with mem := t.mem }) ∧
    (3584 < bytes.length → hostCall (.loadProgram bytes) s = .refused .imageTooLarge)

/-- `store` and `set_quirk`, with what they refuse (R303, R304). -/
def Obligations.StoreAndSetQuirk : Prop :=
  ∀ (s : State) (a : Nat) (b : Byte) (name : String) (q : Bool), s.tickPos = 0 → MemoryOk s →
    (a ≤ 0xFFF → ∃ t, hostCall (.store a b) s = .next t ∧
      (∀ j, byteAt t j = if j = a then b else byteAt s j) ∧ t = { s with mem := t.mem }) ∧
    (0xFFF < a → hostCall (.store a b) s = .refused .addressOutOfRange) ∧
    hostCall (.setQuirk "inc_i" q) s = .next { s with qIncI := q } ∧
    hostCall (.setQuirk "shift_vy" q) s = .next { s with qShiftVy := q } ∧
    (name ≠ "inc_i" → name ≠ "shift_vy" →
      hostCall (.setQuirk name q) s = .refused .unknownQuirk)

/-- The boot sequence leaves a core that executes from 0x200 with the font and the image in memory, the
quirks as set and every other register as at reset (R306). That no tick runs at construction, so that the
host's calls are accepted, is the model's choice (logs 1, 2). -/
def Obligations.BootLeavesARunningCore : Prop :=
  ∀ (font image : List Byte) (incI shiftVy : Bool), font.length = 80 → image.length ≤ 3584 →
    ∃ t, runHost (bootOps font image incI shiftVy) State.constructed = t ∧ executes t = true ∧
      t = { State.reset with halted := false, qIncI := incI, qShiftVy := shiftVy, mem := t.mem } ∧
      (∀ k (h : k < font.length), byteAt t k = font[k]) ∧
      (∀ k (h : k < image.length), byteAt t (0x200 + k) = image[k]) ∧
      (∀ a, 80 ≤ a → a < 0x200 ∨ 0x200 + image.length ≤ a → byteAt t a = 0)

/-! ## Rules of the whole machine -/

/-- Each piece of state is written by no instruction but those the spec lists for it: V, I, PC, SP, the
stack, DT and ST (R22, R25, R27, R38), the wait (R33), memory (R60, R64), the display (R278). What only the
host writes is written by none: the quirks, `halted`, the keys (R31-R33, R279). The clauses on the tick
position and the count of draws are about the model's own fields (logs 1, 6). -/
def Obligations.OnlyTheListedInstructionsWrite : Prop :=
  ∀ (i : Instr) (s t : State), exec i s = .next t →
    (t.qIncI = s.qIncI ∧ t.qShiftVy = s.qShiftVy ∧ t.halted = s.halted ∧ t.keysDown = s.keysDown ∧
      t.tickPos = s.tickPos) ∧
    (writesStack i = false → t.stack = s.stack ∧ t.sp = s.sp) ∧
    (writesPc i = false → t.pc = s.pc ∧ t.pcSet = s.pcSet) ∧
    ((∀ x, i ≠ .writeDt x) → t.dt = s.dt) ∧
    ((∀ x, i ≠ .writeSt x) → t.st = s.st) ∧
    ((∀ x, i ≠ .waitKey x) → t.keyWait = s.keyWait) ∧
    ((∀ x kk, i ≠ .rnd x kk) → t.draws = s.draws) ∧
    (NoFault t →
      (∀ r, writesV i r = false → readV t r = readV s r) ∧
      (writesI i = false → t.i = s.i) ∧
      (writesMemory i = false → t.mem = s.mem) ∧
      (writesDisplay i = false → t.bitmap = s.bitmap))

/-- No instruction reads ST: a different sound timer changes nothing but the sound timer (R30). -/
def Obligations.NoInstructionReadsTheSoundTimer : Prop :=
  ∀ (i : Instr) (s t : State) (b : Byte), exec i s = .next t →
    (∀ x, i = .writeSt x → exec i { s with st := b } = .next t) ∧
    ((∀ x, i ≠ .writeSt x) → exec i { s with st := b } = .next { t with st := b })

/-- Only the two shifts and the two block transfers depend on the quirks (R31, R32, R312). -/
def Obligations.OnlyFourInstructionsReadTheQuirks : Prop :=
  ∀ (i : Instr) (s t : State) (a b : Bool), readsQuirks i = false → exec i s = .next t →
    exec i { s with qIncI := a, qShiftVy := b } = .next { t with qIncI := a, qShiftVy := b }

/-- A core that spins on a jump to its own address goes on spinning, and nothing changes but the timers
and the per-cycle bookkeeping (`pc_set`, log 18, and the tick position, log 1) (R315). -/
def Obligations.SpinningProgramStaysFinished : Prop :=
  ∀ s : State, FinishedSpinning s → ∃ t, step s = .next t ∧ FinishedSpinning t ∧
    t = { s with dt := t.dt, st := t.st, tickPos := t.tickPos, pcSet := t.pcSet }
end

