-- ==== Sys2Proof/Laws/Decode.lean ====
section
/-! SUPPORT. The fields of the words the encoder builds, the bytes of a word, and what the table's masks
keep of a word. -/

namespace Sys2Proof

variable (op : Nat) (nnn : Addr12) (x y : Reg) (kk : Byte) (n : BitVec 4) (w : Word)

theorem fieldOp_toNat : (fieldOp w).toNat = w.toNat / 4096 % 16 := by
  simp [fieldOp, Nat.shiftRight_eq_div_pow]

theorem fieldX_val : (fieldX w).val = w.toNat / 256 % 16 := by
  simp [fieldX, Nat.shiftRight_eq_div_pow]

theorem fieldY_val : (fieldY w).val = w.toNat / 16 % 16 := by
  simp [fieldY, Nat.shiftRight_eq_div_pow]

theorem fieldN_toNat : (fieldN w).toNat = w.toNat % 16 := by
  simp [fieldN]

theorem fieldKk_toNat : (fieldKk w).toNat = w.toNat % 256 := by
  simp [fieldKk]

theorem fieldNnn_toNat : (fieldNnn w).toNat = w.toNat % 4096 := by
  simp [fieldNnn]

theorem wordA_toNat (h : op < 16) : (wordA op nnn).toNat = op * 4096 + nnn.toNat := by
  have := nnn.isLt
  simp only [wordA, BitVec.toNat_ofNat]
  omega

theorem wordXKK_toNat (h : op < 16) :
    (wordXKK op x kk).toNat = op * 4096 + x.val * 256 + kk.toNat := by
  have := kk.isLt
  have := x.isLt
  simp only [wordXKK, BitVec.toNat_ofNat]
  omega

theorem wordXYN_toNat (h : op < 16) :
    (wordXYN op x y n).toNat = op * 4096 + x.val * 256 + y.val * 16 + n.toNat := by
  have := n.isLt
  have := x.isLt
  have := y.isLt
  simp only [wordXYN, BitVec.toNat_ofNat]
  omega

/-- The fields of a format A word (R81, R83). -/
theorem fields_wordA (h : op < 16) :
    fieldOp (wordA op nnn) = BitVec.ofNat 4 op ∧ fieldNnn (wordA op nnn) = nnn ∧
      fieldKk (wordA op nnn) = nnn.extractLsb' 0 8 := by
  have := nnn.isLt
  refine ⟨BitVec.eq_of_toNat_eq ?_, BitVec.eq_of_toNat_eq ?_, BitVec.eq_of_toNat_eq ?_⟩
  · rw [fieldOp_toNat, wordA_toNat _ _ h, BitVec.toNat_ofNat]
    omega
  · rw [fieldNnn_toNat, wordA_toNat _ _ h]
    omega
  · rw [fieldKk_toNat, wordA_toNat _ _ h]
    simp
    omega

/-- The fields of a format XKK or X word (R81, R83). -/
theorem fields_wordXKK (h : op < 16) :
    fieldOp (wordXKK op x kk) = BitVec.ofNat 4 op ∧ fieldX (wordXKK op x kk) = x ∧
      fieldKk (wordXKK op x kk) = kk := by
  have := kk.isLt
  have := x.isLt
  refine ⟨BitVec.eq_of_toNat_eq ?_, Fin.ext ?_, BitVec.eq_of_toNat_eq ?_⟩
  · rw [fieldOp_toNat, wordXKK_toNat _ _ _ h, BitVec.toNat_ofNat]
    omega
  · rw [fieldX_val, wordXKK_toNat _ _ _ h]
    omega
  · rw [fieldKk_toNat, wordXKK_toNat _ _ _ h]
    omega

/-- The fields of a format XY or XYN word (R81, R83). -/
theorem fields_wordXYN (h : op < 16) :
    fieldOp (wordXYN op x y n) = BitVec.ofNat 4 op ∧ fieldX (wordXYN op x y n) = x ∧
      fieldY (wordXYN op x y n) = y ∧ fieldN (wordXYN op x y n) = n := by
  have := n.isLt
  have := x.isLt
  have := y.isLt
  refine ⟨BitVec.eq_of_toNat_eq ?_, Fin.ext ?_, Fin.ext ?_, BitVec.eq_of_toNat_eq ?_⟩
  · rw [fieldOp_toNat, wordXYN_toNat _ _ _ _ h, BitVec.toNat_ofNat]
    omega
  · rw [fieldX_val, wordXYN_toNat _ _ _ _ h]
    omega
  · rw [fieldY_val, wordXYN_toNat _ _ _ _ h]
    omega
  · rw [fieldN_toNat, wordXYN_toNat _ _ _ _ h]
    omega

/-- Bit 0 of the low byte is bit 0 of the word (R87). -/
theorem getLsbD_zero_of_kk : w.getLsbD 0 = (fieldKk w).getLsbD 0 := by
  simp [fieldKk]

/-- A word is its two bytes (R65). -/
@[simp] theorem wordOfBytes_hiByte_loByte : wordOfBytes (hiByte w) (loByte w) = w := by
  apply BitVec.eq_of_toNat_eq
  have := w.isLt
  simp [wordOfBytes, hiByte, loByte, Nat.shiftRight_eq_div_pow]
  omega

/-! What a mask keeps (R91). -/

theorem and_maskA : w &&& (0xF000 : Word) = (fieldOp w).setWidth 16 <<< 12 := by
  ext i hi
  interval_cases i <;> simp [fieldOp]

theorem and_maskXY :
    w &&& (0xF00F : Word) = ((fieldOp w).setWidth 16 <<< 12) ||| (fieldN w).setWidth 16 := by
  ext i hi
  interval_cases i <;> simp [fieldOp, fieldN]

theorem and_maskX :
    w &&& (0xF0FF : Word) = ((fieldOp w).setWidth 16 <<< 12) ||| (fieldKk w).setWidth 16 := by
  ext i hi
  interval_cases i <;> simp [fieldOp, fieldKk]

theorem and_maskE :
    w &&& (0xF001 : Word)
      = ((fieldOp w).setWidth 16 <<< 12) ||| ((fieldKk w).setWidth 16 &&& 0x0001#16) := by
  ext i hi
  interval_cases i <;> simp [fieldOp, fieldKk]

end Sys2Proof
end

