-- ==== Sys2Proof/Laws/Memory.lean ====
section
/-! SUPPORT. Memory as data: a read after a write, a write leaves other addresses alone, every memory
operation keeps the canonical form, and the canonical form is one per contents. -/

namespace Sys2Proof.Machine

theorem Memory.wfFrom_cons {lo a : Nat} {b : Byte} {m : Memory} :
    Memory.wfFrom lo ((a, b) :: m) = true ↔
      lo ≤ a ∧ a ≤ maxAddress ∧ b ≠ unlistedByte ∧ Memory.wfFrom (a + 1) m = true := by
  simp [Memory.wfFrom, and_assoc]

theorem Memory.wfFrom_mono {lo lo' : Nat} (h : lo' ≤ lo) :
    ∀ {m : Memory}, Memory.wfFrom lo m = true → Memory.wfFrom lo' m = true
  | [], _ => rfl
  | (a, b) :: m, hm => by
    rw [Memory.wfFrom_cons] at hm ⊢
    exact ⟨by omega, hm.2⟩

/-- Below the bound of a canonical list nothing is listed. -/
theorem Memory.read_below {lo k : Nat} :
    ∀ {m : Memory}, Memory.wfFrom lo m = true → k < lo → m.read k = unlistedByte
  | [], _, _ => rfl
  | (a, b) :: m, hm, hk => by
    rw [Memory.wfFrom_cons] at hm
    have : a ≠ k := by omega
    simp only [Memory.read, if_neg this]
    exact Memory.read_below hm.2.2.2 (by omega)

/-- A write keeps the canonical form from any bound not above the address. -/
theorem Memory.wfFrom_write {lo k : Nat} {b : Byte} (hk : k ≤ maxAddress) :
    ∀ {m : Memory}, Memory.wfFrom lo m = true → lo ≤ k → Memory.wfFrom lo (m.write k b) = true
  | [], _, hl => by
    unfold Memory.write
    split
    · rfl
    · rename_i hb
      exact Memory.wfFrom_cons.2 ⟨hl, hk, hb, rfl⟩
  | (a, c) :: m, hm, hl => by
    have hm' := Memory.wfFrom_cons.1 hm
    unfold Memory.write
    split
    · split
      · exact hm
      · rename_i hka hb
        exact Memory.wfFrom_cons.2 ⟨hl, hk, hb, Memory.wfFrom_cons.2 ⟨by omega, hm'.2⟩⟩
    · split
      · split
        · exact Memory.wfFrom_mono (by omega) hm'.2.2.2
        · rename_i hka hb
          exact Memory.wfFrom_cons.2 ⟨hm'.1, hm'.2.1, hb, hm'.2.2.2⟩
      · exact Memory.wfFrom_cons.2
          ⟨hm'.1, hm'.2.1, hm'.2.2.1, Memory.wfFrom_write hk hm'.2.2.2 (by omega)⟩

/-- A write inside memory keeps the canonical form. -/
theorem Memory.wf_write {k : Nat} {b : Byte} {m : Memory} (hk : k ≤ maxAddress) (hm : m.wf = true) :
    (m.write k b).wf = true :=
  Memory.wfFrom_write hk hm (Nat.zero_le k)

/-- Reading after a write, from any bound. -/
theorem Memory.read_write_from {lo k j : Nat} {b : Byte} :
    ∀ {m : Memory}, Memory.wfFrom lo m = true →
      (m.write k b).read j = if j = k then b else m.read j
  | [], _ => by
    by_cases hj : j = k
    · subst hj
      by_cases hb : b = unlistedByte <;> simp [Memory.write, Memory.read, hb]
    · by_cases hb : b = unlistedByte <;> simp [Memory.write, Memory.read, hb, hj, Ne.symm hj]
  | (a, c) :: m, hm => by
    have hm' := Memory.wfFrom_cons.1 hm
    by_cases hka : k < a
    · have hb0 : Memory.read ((a, c) :: m) k = unlistedByte :=
        Memory.read_below (lo := a) (Memory.wfFrom_cons.2 ⟨le_refl a, hm'.2⟩) hka
      by_cases hj : j = k
      · subst hj
        by_cases hb : b = unlistedByte
        · simp [Memory.write, hka, hb, hb0]
        · simp [Memory.write, Memory.read, hka, hb]
      · by_cases hb : b = unlistedByte <;> simp [Memory.write, Memory.read, hka, hb, hj, Ne.symm hj]
    · by_cases hk : k = a
      · subst hk
        have hb0 : Memory.read m k = unlistedByte := Memory.read_below hm'.2.2.2 (by omega)
        by_cases hj : j = k
        · subst hj
          by_cases hb : b = unlistedByte <;> simp [Memory.write, Memory.read, hb, hb0]
        · by_cases hb : b = unlistedByte <;> simp [Memory.write, Memory.read, hb, hj, Ne.symm hj]
      · have ih := Memory.read_write_from (k := k) (j := j) (b := b) hm'.2.2.2
        by_cases hj : a = j
        · subst hj
          simp [Memory.write, Memory.read, hka, hk, Ne.symm hk]
        · simp [Memory.write, Memory.read, hka, hk, hj, ih]

/-- A read after a write: the written address gives the byte, every other what it gave before (R70). -/
theorem Memory.read_write {k j : Nat} {b : Byte} {m : Memory} (hm : m.wf = true) :
    (m.write k b).read j = if j = k then b else m.read j :=
  Memory.read_write_from hm

/-- Two canonical lists with the same contents are one list. -/
theorem Memory.ext_from {lo : Nat} :
    ∀ {m m' : Memory}, Memory.wfFrom lo m = true → Memory.wfFrom lo m' = true →
      (∀ k, m.read k = m'.read k) → m = m'
  | [], [], _, _, _ => rfl
  | [], (a, b) :: m', _, h', h => by
    have := h a
    simp [Memory.read] at this
    exact absurd this.symm (Memory.wfFrom_cons.1 h').2.2.1
  | (a, b) :: m, [], h, _, he => by
    have := he a
    simp [Memory.read] at this
    exact absurd this (Memory.wfFrom_cons.1 h).2.2.1
  | (a, b) :: m, (a', b') :: m', h, h', he => by
    have w := Memory.wfFrom_cons.1 h
    have w' := Memory.wfFrom_cons.1 h'
    have haa : a = a' := by
      rcases Nat.lt_trichotomy a a' with hl | hl | hl
      · have e := he a
        rw [Memory.read_below (lo := a') (Memory.wfFrom_cons.2 ⟨le_refl _, w'.2⟩) hl] at e
        simp [Memory.read] at e
        exact absurd e w.2.2.1
      · exact hl
      · have e := he a'
        rw [Memory.read_below (lo := a) (Memory.wfFrom_cons.2 ⟨le_refl _, w.2⟩) hl] at e
        simp [Memory.read] at e
        exact absurd e.symm w'.2.2.1
    subst haa
    have hbb : b = b' := by simpa [Memory.read] using he a
    subst hbb
    have ht : m = m' := by
      refine Memory.ext_from w.2.2.2 w'.2.2.2 (fun k => ?_)
      by_cases hk : a = k
      · subst hk
        rw [Memory.read_below w.2.2.2 (by omega), Memory.read_below w'.2.2.2 (by omega)]
      · simpa [Memory.read, hk] using he k
    rw [ht]

/-- The canonical form is canonical: equal contents, equal lists. -/
theorem Memory.ext_of_wf {m m' : Memory} (h : m.wf = true) (h' : m'.wf = true)
    (he : ∀ k, m.read k = m'.read k) : m = m' :=
  Memory.ext_from h h' he

theorem pokeByte_wf {m : Memory} {a : Nat} {b : Byte} (hm : m.wf = true) :
    (pokeByte m a b).wf = true := by
  unfold pokeByte
  split
  · exact Memory.wf_write ‹_› hm
  · exact hm

/-- A poked byte is read back; an address outside memory takes none. -/
theorem read_pokeByte {m : Memory} {a j : Nat} {b : Byte} (hm : m.wf = true) :
    (pokeByte m a b).read j = if j = a ∧ a ≤ maxAddress then b else m.read j := by
  unfold pokeByte
  split <;> simp_all [Memory.read_write]

theorem pokeBytes_wf :
    ∀ {bs : List Byte} {m : Memory} {a : Nat}, m.wf = true → (pokeBytes m a bs).wf = true
  | [], _, _, h => h
  | _ :: bs, _, _, h => pokeBytes_wf (bs := bs) (pokeByte_wf h)

/-- The memory of the reset state lists nothing and is canonical. -/
theorem reset_mem_wf : State.reset.mem.wf = true := rfl

end Sys2Proof.Machine
end

