-- ==== Sys2Proof/Laws/State.lean ====
section
/-! SUPPORT. One lemma per field per named update of State, true by rfl, so that no proof unfolds a record
update; the fields of a raised state; and what reading V gives after writing it. -/

namespace Sys2Proof.Machine

variable (s : State)

/-! `writeV` -/

@[simp] theorem writeV_mem (x : Reg) (b : Byte) : (writeV s x b).mem = s.mem := rfl
@[simp] theorem writeV_v (x : Reg) (b : Byte) : (writeV s x b).v = s.v.set x b := rfl
@[simp] theorem writeV_i (x : Reg) (b : Byte) : (writeV s x b).i = s.i := rfl
@[simp] theorem writeV_pc (x : Reg) (b : Byte) : (writeV s x b).pc = s.pc := rfl
@[simp] theorem writeV_stack (x : Reg) (b : Byte) : (writeV s x b).stack = s.stack := rfl
@[simp] theorem writeV_sp (x : Reg) (b : Byte) : (writeV s x b).sp = s.sp := rfl
@[simp] theorem writeV_dt (x : Reg) (b : Byte) : (writeV s x b).dt = s.dt := rfl
@[simp] theorem writeV_st (x : Reg) (b : Byte) : (writeV s x b).st = s.st := rfl
@[simp] theorem writeV_qIncI (x : Reg) (b : Byte) : (writeV s x b).qIncI = s.qIncI := rfl
@[simp] theorem writeV_qShiftVy (x : Reg) (b : Byte) : (writeV s x b).qShiftVy = s.qShiftVy := rfl
@[simp] theorem writeV_halted (x : Reg) (b : Byte) : (writeV s x b).halted = s.halted := rfl
@[simp] theorem writeV_keyWait (x : Reg) (b : Byte) : (writeV s x b).keyWait = s.keyWait := rfl
@[simp] theorem writeV_fault (x : Reg) (b : Byte) : (writeV s x b).fault = s.fault := rfl
@[simp] theorem writeV_pcSet (x : Reg) (b : Byte) : (writeV s x b).pcSet = s.pcSet := rfl
@[simp] theorem writeV_bitmap (x : Reg) (b : Byte) : (writeV s x b).bitmap = s.bitmap := rfl
@[simp] theorem writeV_keysDown (x : Reg) (b : Byte) : (writeV s x b).keysDown = s.keysDown := rfl
@[simp] theorem writeV_draws (x : Reg) (b : Byte) : (writeV s x b).draws = s.draws := rfl
@[simp] theorem writeV_tickPos (x : Reg) (b : Byte) : (writeV s x b).tickPos = s.tickPos := rfl

/-! `writeI` -/

@[simp] theorem writeI_mem (w : Word) : (writeI s w).mem = s.mem := rfl
@[simp] theorem writeI_v (w : Word) : (writeI s w).v = s.v := rfl
@[simp] theorem writeI_i (w : Word) : (writeI s w).i = w := rfl
@[simp] theorem writeI_pc (w : Word) : (writeI s w).pc = s.pc := rfl
@[simp] theorem writeI_stack (w : Word) : (writeI s w).stack = s.stack := rfl
@[simp] theorem writeI_sp (w : Word) : (writeI s w).sp = s.sp := rfl
@[simp] theorem writeI_dt (w : Word) : (writeI s w).dt = s.dt := rfl
@[simp] theorem writeI_st (w : Word) : (writeI s w).st = s.st := rfl
@[simp] theorem writeI_qIncI (w : Word) : (writeI s w).qIncI = s.qIncI := rfl
@[simp] theorem writeI_qShiftVy (w : Word) : (writeI s w).qShiftVy = s.qShiftVy := rfl
@[simp] theorem writeI_halted (w : Word) : (writeI s w).halted = s.halted := rfl
@[simp] theorem writeI_keyWait (w : Word) : (writeI s w).keyWait = s.keyWait := rfl
@[simp] theorem writeI_fault (w : Word) : (writeI s w).fault = s.fault := rfl
@[simp] theorem writeI_pcSet (w : Word) : (writeI s w).pcSet = s.pcSet := rfl
@[simp] theorem writeI_bitmap (w : Word) : (writeI s w).bitmap = s.bitmap := rfl
@[simp] theorem writeI_keysDown (w : Word) : (writeI s w).keysDown = s.keysDown := rfl
@[simp] theorem writeI_draws (w : Word) : (writeI s w).draws = s.draws := rfl
@[simp] theorem writeI_tickPos (w : Word) : (writeI s w).tickPos = s.tickPos := rfl

/-! `setPc` -/

@[simp] theorem setPc_mem (target : Word) : (setPc s target).mem = s.mem := rfl
@[simp] theorem setPc_v (target : Word) : (setPc s target).v = s.v := rfl
@[simp] theorem setPc_i (target : Word) : (setPc s target).i = s.i := rfl
@[simp] theorem setPc_pc (target : Word) : (setPc s target).pc = target := rfl
@[simp] theorem setPc_stack (target : Word) : (setPc s target).stack = s.stack := rfl
@[simp] theorem setPc_sp (target : Word) : (setPc s target).sp = s.sp := rfl
@[simp] theorem setPc_dt (target : Word) : (setPc s target).dt = s.dt := rfl
@[simp] theorem setPc_st (target : Word) : (setPc s target).st = s.st := rfl
@[simp] theorem setPc_qIncI (target : Word) : (setPc s target).qIncI = s.qIncI := rfl
@[simp] theorem setPc_qShiftVy (target : Word) : (setPc s target).qShiftVy = s.qShiftVy := rfl
@[simp] theorem setPc_halted (target : Word) : (setPc s target).halted = s.halted := rfl
@[simp] theorem setPc_keyWait (target : Word) : (setPc s target).keyWait = s.keyWait := rfl
@[simp] theorem setPc_fault (target : Word) : (setPc s target).fault = s.fault := rfl
@[simp] theorem setPc_pcSet (target : Word) : (setPc s target).pcSet = true := rfl
@[simp] theorem setPc_bitmap (target : Word) : (setPc s target).bitmap = s.bitmap := rfl
@[simp] theorem setPc_keysDown (target : Word) : (setPc s target).keysDown = s.keysDown := rfl
@[simp] theorem setPc_draws (target : Word) : (setPc s target).draws = s.draws := rfl
@[simp] theorem setPc_tickPos (target : Word) : (setPc s target).tickPos = s.tickPos := rfl

/-! `clearDisplay` -/

@[simp] theorem clearDisplay_mem : (clearDisplay s).mem = s.mem := rfl
@[simp] theorem clearDisplay_v : (clearDisplay s).v = s.v := rfl
@[simp] theorem clearDisplay_i : (clearDisplay s).i = s.i := rfl
@[simp] theorem clearDisplay_pc : (clearDisplay s).pc = s.pc := rfl
@[simp] theorem clearDisplay_stack : (clearDisplay s).stack = s.stack := rfl
@[simp] theorem clearDisplay_sp : (clearDisplay s).sp = s.sp := rfl
@[simp] theorem clearDisplay_dt : (clearDisplay s).dt = s.dt := rfl
@[simp] theorem clearDisplay_st : (clearDisplay s).st = s.st := rfl
@[simp] theorem clearDisplay_qIncI : (clearDisplay s).qIncI = s.qIncI := rfl
@[simp] theorem clearDisplay_qShiftVy : (clearDisplay s).qShiftVy = s.qShiftVy := rfl
@[simp] theorem clearDisplay_halted : (clearDisplay s).halted = s.halted := rfl
@[simp] theorem clearDisplay_keyWait : (clearDisplay s).keyWait = s.keyWait := rfl
@[simp] theorem clearDisplay_fault : (clearDisplay s).fault = s.fault := rfl
@[simp] theorem clearDisplay_pcSet : (clearDisplay s).pcSet = s.pcSet := rfl
@[simp] theorem clearDisplay_bitmap : (clearDisplay s).bitmap = Bitmap.blank := rfl
@[simp] theorem clearDisplay_keysDown : (clearDisplay s).keysDown = s.keysDown := rfl
@[simp] theorem clearDisplay_draws : (clearDisplay s).draws = s.draws := rfl
@[simp] theorem clearDisplay_tickPos : (clearDisplay s).tickPos = s.tickPos := rfl

/-! `timerDecrement` -/

@[simp] theorem timerDecrement_mem : (timerDecrement s).mem = s.mem := rfl
@[simp] theorem timerDecrement_v : (timerDecrement s).v = s.v := rfl
@[simp] theorem timerDecrement_i : (timerDecrement s).i = s.i := rfl
@[simp] theorem timerDecrement_pc : (timerDecrement s).pc = s.pc := rfl
@[simp] theorem timerDecrement_stack : (timerDecrement s).stack = s.stack := rfl
@[simp] theorem timerDecrement_sp : (timerDecrement s).sp = s.sp := rfl
@[simp] theorem timerDecrement_dt : (timerDecrement s).dt = countDown s.dt := rfl
@[simp] theorem timerDecrement_st : (timerDecrement s).st = countDown s.st := rfl
@[simp] theorem timerDecrement_qIncI : (timerDecrement s).qIncI = s.qIncI := rfl
@[simp] theorem timerDecrement_qShiftVy : (timerDecrement s).qShiftVy = s.qShiftVy := rfl
@[simp] theorem timerDecrement_halted : (timerDecrement s).halted = s.halted := rfl
@[simp] theorem timerDecrement_keyWait : (timerDecrement s).keyWait = s.keyWait := rfl
@[simp] theorem timerDecrement_fault : (timerDecrement s).fault = s.fault := rfl
@[simp] theorem timerDecrement_pcSet : (timerDecrement s).pcSet = s.pcSet := rfl
@[simp] theorem timerDecrement_bitmap : (timerDecrement s).bitmap = s.bitmap := rfl
@[simp] theorem timerDecrement_keysDown : (timerDecrement s).keysDown = s.keysDown := rfl
@[simp] theorem timerDecrement_draws : (timerDecrement s).draws = s.draws := rfl
@[simp] theorem timerDecrement_tickPos : (timerDecrement s).tickPos = s.tickPos := rfl

/-! `hostHalt` -/

@[simp] theorem hostHalt_mem : (hostHalt s).mem = s.mem := rfl
@[simp] theorem hostHalt_v : (hostHalt s).v = s.v := rfl
@[simp] theorem hostHalt_i : (hostHalt s).i = s.i := rfl
@[simp] theorem hostHalt_pc : (hostHalt s).pc = s.pc := rfl
@[simp] theorem hostHalt_stack : (hostHalt s).stack = s.stack := rfl
@[simp] theorem hostHalt_sp : (hostHalt s).sp = s.sp := rfl
@[simp] theorem hostHalt_dt : (hostHalt s).dt = s.dt := rfl
@[simp] theorem hostHalt_st : (hostHalt s).st = s.st := rfl
@[simp] theorem hostHalt_qIncI : (hostHalt s).qIncI = s.qIncI := rfl
@[simp] theorem hostHalt_qShiftVy : (hostHalt s).qShiftVy = s.qShiftVy := rfl
@[simp] theorem hostHalt_halted : (hostHalt s).halted = true := rfl
@[simp] theorem hostHalt_keyWait : (hostHalt s).keyWait = s.keyWait := rfl
@[simp] theorem hostHalt_fault : (hostHalt s).fault = s.fault := rfl
@[simp] theorem hostHalt_pcSet : (hostHalt s).pcSet = s.pcSet := rfl
@[simp] theorem hostHalt_bitmap : (hostHalt s).bitmap = s.bitmap := rfl
@[simp] theorem hostHalt_keysDown : (hostHalt s).keysDown = s.keysDown := rfl
@[simp] theorem hostHalt_draws : (hostHalt s).draws = s.draws := rfl
@[simp] theorem hostHalt_tickPos : (hostHalt s).tickPos = s.tickPos := rfl

/-! `hostResume` -/

@[simp] theorem hostResume_mem : (hostResume s).mem = s.mem := rfl
@[simp] theorem hostResume_v : (hostResume s).v = s.v := rfl
@[simp] theorem hostResume_i : (hostResume s).i = s.i := rfl
@[simp] theorem hostResume_pc : (hostResume s).pc = s.pc := rfl
@[simp] theorem hostResume_stack : (hostResume s).stack = s.stack := rfl
@[simp] theorem hostResume_sp : (hostResume s).sp = s.sp := rfl
@[simp] theorem hostResume_dt : (hostResume s).dt = s.dt := rfl
@[simp] theorem hostResume_st : (hostResume s).st = s.st := rfl
@[simp] theorem hostResume_qIncI : (hostResume s).qIncI = s.qIncI := rfl
@[simp] theorem hostResume_qShiftVy : (hostResume s).qShiftVy = s.qShiftVy := rfl
@[simp] theorem hostResume_halted : (hostResume s).halted = false := rfl
@[simp] theorem hostResume_keyWait : (hostResume s).keyWait = s.keyWait := rfl
@[simp] theorem hostResume_fault : (hostResume s).fault = s.fault := rfl
@[simp] theorem hostResume_pcSet : (hostResume s).pcSet = s.pcSet := rfl
@[simp] theorem hostResume_bitmap : (hostResume s).bitmap = s.bitmap := rfl
@[simp] theorem hostResume_keysDown : (hostResume s).keysDown = s.keysDown := rfl
@[simp] theorem hostResume_draws : (hostResume s).draws = s.draws := rfl
@[simp] theorem hostResume_tickPos : (hostResume s).tickPos = s.tickPos := rfl

/-! `setKeyState` -/

@[simp] theorem setKeyState_mem (k : Fin 16) (down : Bool) : (setKeyState k down s).mem = s.mem := rfl
@[simp] theorem setKeyState_v (k : Fin 16) (down : Bool) : (setKeyState k down s).v = s.v := rfl
@[simp] theorem setKeyState_i (k : Fin 16) (down : Bool) : (setKeyState k down s).i = s.i := rfl
@[simp] theorem setKeyState_pc (k : Fin 16) (down : Bool) : (setKeyState k down s).pc = s.pc := rfl
@[simp] theorem setKeyState_stack (k : Fin 16) (down : Bool) : (setKeyState k down s).stack = s.stack := rfl
@[simp] theorem setKeyState_sp (k : Fin 16) (down : Bool) : (setKeyState k down s).sp = s.sp := rfl
@[simp] theorem setKeyState_dt (k : Fin 16) (down : Bool) : (setKeyState k down s).dt = s.dt := rfl
@[simp] theorem setKeyState_st (k : Fin 16) (down : Bool) : (setKeyState k down s).st = s.st := rfl
@[simp] theorem setKeyState_qIncI (k : Fin 16) (down : Bool) : (setKeyState k down s).qIncI = s.qIncI := rfl
@[simp] theorem setKeyState_qShiftVy (k : Fin 16) (down : Bool) : (setKeyState k down s).qShiftVy = s.qShiftVy := rfl
@[simp] theorem setKeyState_halted (k : Fin 16) (down : Bool) : (setKeyState k down s).halted = s.halted := rfl
@[simp] theorem setKeyState_keyWait (k : Fin 16) (down : Bool) : (setKeyState k down s).keyWait = s.keyWait := rfl
@[simp] theorem setKeyState_fault (k : Fin 16) (down : Bool) : (setKeyState k down s).fault = s.fault := rfl
@[simp] theorem setKeyState_pcSet (k : Fin 16) (down : Bool) : (setKeyState k down s).pcSet = s.pcSet := rfl
@[simp] theorem setKeyState_bitmap (k : Fin 16) (down : Bool) : (setKeyState k down s).bitmap = s.bitmap := rfl
@[simp] theorem setKeyState_keysDown (k : Fin 16) (down : Bool) : (setKeyState k down s).keysDown = s.keysDown.set k down := rfl
@[simp] theorem setKeyState_draws (k : Fin 16) (down : Bool) : (setKeyState k down s).draws = s.draws := rfl
@[simp] theorem setKeyState_tickPos (k : Fin 16) (down : Bool) : (setKeyState k down s).tickPos = s.tickPos := rfl

/-! `raise` changes the fault record alone (R261). -/

@[simp] theorem raise_mem (f : Fault) : (raise s f).mem = s.mem := by unfold raise; split <;> rfl
@[simp] theorem raise_v (f : Fault) : (raise s f).v = s.v := by unfold raise; split <;> rfl
@[simp] theorem raise_i (f : Fault) : (raise s f).i = s.i := by unfold raise; split <;> rfl
@[simp] theorem raise_pc (f : Fault) : (raise s f).pc = s.pc := by unfold raise; split <;> rfl
@[simp] theorem raise_stack (f : Fault) : (raise s f).stack = s.stack := by unfold raise; split <;> rfl
@[simp] theorem raise_sp (f : Fault) : (raise s f).sp = s.sp := by unfold raise; split <;> rfl
@[simp] theorem raise_dt (f : Fault) : (raise s f).dt = s.dt := by unfold raise; split <;> rfl
@[simp] theorem raise_st (f : Fault) : (raise s f).st = s.st := by unfold raise; split <;> rfl
@[simp] theorem raise_qIncI (f : Fault) : (raise s f).qIncI = s.qIncI := by unfold raise; split <;> rfl
@[simp] theorem raise_qShiftVy (f : Fault) : (raise s f).qShiftVy = s.qShiftVy := by unfold raise; split <;> rfl
@[simp] theorem raise_halted (f : Fault) : (raise s f).halted = s.halted := by unfold raise; split <;> rfl
@[simp] theorem raise_keyWait (f : Fault) : (raise s f).keyWait = s.keyWait := by unfold raise; split <;> rfl
@[simp] theorem raise_pcSet (f : Fault) : (raise s f).pcSet = s.pcSet := by unfold raise; split <;> rfl
@[simp] theorem raise_bitmap (f : Fault) : (raise s f).bitmap = s.bitmap := by unfold raise; split <;> rfl
@[simp] theorem raise_keysDown (f : Fault) : (raise s f).keysDown = s.keysDown := by unfold raise; split <;> rfl
@[simp] theorem raise_draws (f : Fault) : (raise s f).draws = s.draws := by unfold raise; split <;> rfl
@[simp] theorem raise_tickPos (f : Fault) : (raise s f).tickPos = s.tickPos := by unfold raise; split <;> rfl

/-- The first fault is recorded and a later one is not (R34, R261). -/
theorem raise_fault (f : Fault) : (raise s f).fault = some (s.fault.getD f) := by
  unfold raise
  split <;> simp_all

theorem raise_of_noFault (f : Fault) (h : s.fault = none) :
    raise s f = { s with fault := some f } := by
  simp [raise, h]

/-- Reading `V` after a write: the written register, else the old value (R21). -/
@[simp] theorem readV_writeV (x r : Reg) (b : Byte) :
    readV (writeV s x b) r = if x = r then b else readV s r := by
  simp [readV, writeV, Vector.getElem_set, Fin.ext_iff]

@[simp] theorem readV_writeI (w : Word) (r : Reg) : readV (writeI s w) r = readV s r := rfl

@[simp] theorem readV_setPc (w : Word) (r : Reg) : readV (setPc s w) r = readV s r := rfl

@[simp] theorem readV_raise (f : Fault) (r : Reg) : readV (raise s f) r = readV s r := by
  simp [readV]

/-- A skip leaves everything but PC and `pc_set`. -/
theorem skipIf_eq (c : Bool) :
    skipIf c s = { s with pc := (if c then s.pc + 4 else s.pc), pcSet := (c || s.pcSet) } := by
  cases c <;> rfl

/-- The result, then the flag (R22). -/
@[simp] theorem readV_writeWithFlag (x r : Reg) (result flag : Byte) :
    readV (writeWithFlag s x result flag) r
      = if r = flagReg then flag else if r = x then result else readV s r := by
  simp only [writeWithFlag, readV_writeV, eq_comm]

/-- A result with a flag changes the V registers alone. -/
theorem writeWithFlag_eq (x : Reg) (result flag : Byte) :
    writeWithFlag s x result flag = { s with v := (writeWithFlag s x result flag).v } := rfl

end Sys2Proof.Machine
end

