-- ==== Sys2Proof/Laws/Ops.lean ====
section
/-! SUPPORT. For each shared operation, one lemma that says everything it can do. -/

namespace Sys2Proof.Machine

variable (s : State)

/-- `MemRead` reads inside memory and raises outside it (R61). -/
theorem memRead_eq (a : Nat) :
    memRead s a = if a ≤ 0xFFF then .ok (byteAt s a) else .error (raise s (.memOutOfRange a)) := rfl

/-- `MemWrite` writes inside memory and raises outside it (R62). -/
theorem memWrite_eq (a : Nat) (b : Byte) :
    memWrite s a b = if a ≤ 0xFFF then .ok { s with mem := s.mem.write a b }
      else .error (raise s (.memOutOfRange a)) := rfl

/-- Reading a byte after an accepted write (R70). -/
theorem byteAt_memWrite {a j : Nat} {b : Byte} {t : State} (hm : MemoryOk s)
    (h : memWrite s a b = .ok t) : byteAt t j = if j = a then b else byteAt s j := by
  rw [memWrite_eq] at h
  split at h
  · injection h with h
    subst h
    exact Memory.read_write hm
  · cases h

/-- An accepted write keeps the canonical form and everything but memory. -/
theorem memWrite_ok {a : Nat} {b : Byte} {t : State} (h : memWrite s a b = .ok t) :
    a ≤ 0xFFF ∧ t = { s with mem := t.mem } ∧ (MemoryOk s → MemoryOk t) := by
  rw [memWrite_eq] at h
  split at h
  · rename_i ha
    injection h with h
    subst h
    exact ⟨ha, rfl, Memory.wf_write ha⟩
  · cases h

/-- `Push`: the word into the first free entry, or the fault of a full stack (R28). -/
theorem push_cases (w : Word) :
    (∃ t, push s w = .ok t ∧ s.sp.val < 16 ∧ t.sp.val = s.sp.val + 1 ∧
        (∀ k (hk : k < 16), t.stack[k] = if k = s.sp.val then w else s.stack[k]) ∧
        t = { s with stack := t.stack, sp := t.sp }) ∨
      (s.sp.val = 16 ∧ push s w = .error (raise s (.stackOverflow s.pc))) := by
  unfold push
  split
  · rename_i h
    refine .inl ⟨_, rfl, h, rfl, fun k hk => ?_, rfl⟩
    simp [Vector.getElem_set, eq_comm]
  · refine .inr ⟨?_, rfl⟩
    have := s.sp.isLt
    omega

/-- `Pop`: the newest entry, or the fault of an empty stack (R28). -/
theorem pop_cases :
    (∃ t k, ∃ hk : k < 16, s.sp.val = k + 1 ∧ pop s = .ok (s.stack[k], t) ∧ t.sp.val = k ∧
        t = { s with sp := t.sp }) ∨
      (s.sp.val = 0 ∧ pop s = .error (raise s (.stackUnderflow s.pc))) := by
  unfold pop
  split
  · exact .inr ⟨‹_›, rfl⟩
  · have := s.sp.isLt
    exact .inl ⟨_, s.sp.val - 1, by omega, by omega, rfl, rfl, rfl⟩

/-- The key code of SKP and SKNP, or the fault of a value above 15 (R220). -/
theorem keyCode_cases (x : Reg) :
    (∃ k : Fin 16, keyCode s x = .ok k ∧ k.val = (readV s x).toNat) ∨
      (15 < (readV s x).toNat ∧
        keyCode s x = .error (raise s (.keyIndexOutOfRange (readV s x)))) := by
  unfold keyCode
  split
  · exact .inl ⟨_, rfl, rfl⟩
  · exact .inr ⟨by omega, rfl⟩

/-- `Fetch`: the aligned word inside memory, or the first fault met (R66). -/
theorem fetch_eq :
    fetch s =
      if s.pc.toNat % 2 = 1 then .error (raise s (.misalignedFetch s.pc))
      else if s.pc.toNat ≤ 0xFFF then
        .ok (wordOfBytes (byteAt s s.pc.toNat) (byteAt s (s.pc.toNat + 1)))
      else .error (raise s (.memOutOfRange s.pc.toNat)) := by
  unfold fetch fetchWith
  simp only [allowOddPc, and_true, memRead_eq]
  by_cases ho : s.pc.toNat % 2 = 1
  · simp [ho]
  · by_cases ha : s.pc.toNat ≤ 0xFFF
    · have : s.pc.toNat + 1 ≤ 0xFFF := by omega
      simp [ho, ha, this]
    · simp [ho, ha]

/-- `set_pixel` in the field toggles one pixel and answers whether it was on (R278). -/
theorem pixel_toggle (bm : Bitmap) {px py : Nat} (h : px < 64 ∧ py < 32) (qx qy : Nat) :
    Bitmap.pixel (Bitmap.toggle bm px py h) qx qy
      = if qx = px ∧ qy = py then !Bitmap.pixel bm px py else Bitmap.pixel bm qx qy := by
  unfold Bitmap.pixel Bitmap.toggle
  by_cases hq : qx < 64 ∧ qy < 32
  · by_cases h1 : qx = px
    · subst h1
      by_cases h2 : qy = py
      · subst h2
        simp [hq]
      · simp [hq, h2, Ne.symm h2]
    · simp [hq, h1, Ne.symm h1]
  · have : ¬(qx = px ∧ qy = py) := by
      rintro ⟨rfl, rfl⟩
      exact hq h
    simp [hq, this]

theorem setPixel_inField (off : Bitmap → Nat → Nat → Bitmap × Bool) {px py : Nat}
    (h : px < 64 ∧ py < 32) :
    setPixel off s px py
      = ({ s with bitmap := Bitmap.toggle s.bitmap px py h }, Bitmap.pixel s.bitmap px py) := by
  simp [setPixel, Bitmap.pixel, h]

/-- `set_pixel` changes nothing but the bitmap. -/
theorem setPixel_frame (off : Bitmap → Nat → Nat → Bitmap × Bool) (px py : Nat) :
    (setPixel off s px py).1 = { s with bitmap := (setPixel off s px py).1.bitmap } := by
  unfold setPixel
  split <;> rfl

/-- Two bitmaps with the same pixels are one bitmap. -/
theorem Bitmap.ext_pixel {b b' : Bitmap} (h : ∀ px py, px < 64 → py < 32 →
    Bitmap.pixel b px py = Bitmap.pixel b' px py) : b = b' := by
  apply Vector.ext
  intro px hpx
  apply Vector.ext
  intro py hpy
  have := h px py hpx hpy
  simpa [Bitmap.pixel, hpx, hpy] using this

/-- The registers of a block transfer are `V0`..`Vx` (R191). -/
theorem mem_regsUpTo (x r : Reg) : r ∈ regsUpTo x ↔ r ≤ x := by
  revert x r
  decide

/-- One set bit of a sprite changes the bitmap and at most VF, to 1 (R236). -/
theorem drawBit_cases (d : DrawArgs) (r c : Nat) :
    (drawBit d r c s = { s with bitmap := (drawBit d r c s).bitmap }) ∨
      (drawBit d r c s
        = { writeV s flagReg 1 with bitmap := (drawBit d r c s).bitmap }) := by
  unfold drawBit
  simp only
  generalize wrap _ _ = px
  generalize wrap _ _ = py
  split
  · right
    rw [setPixel_frame]
    rfl
  · left
    exact setPixel_frame s d.off px py

/-- What drawing can change: the bitmap, and VF to 0 or 1. -/
def DrawFrame (s t : State) : Prop :=
  t = { s with v := t.v, bitmap := t.bitmap } ∧
    (∀ q, q ≠ flagReg → readV t q = readV s q) ∧
    (readV t flagReg = readV s flagReg ∨ readV t flagReg = 1)

theorem DrawFrame.rfl : DrawFrame s s := ⟨Eq.refl _, fun _ _ => Eq.refl _, .inl (Eq.refl _)⟩

theorem DrawFrame.trans {s t u : State} (h : DrawFrame s t) (h' : DrawFrame t u) :
    DrawFrame s u := by
  obtain ⟨h1, h2, h3⟩ := h
  obtain ⟨h1', h2', h3'⟩ := h'
  refine ⟨?_, fun q hq => (h2' q hq).trans (h2 q hq), ?_⟩
  · rw [h1', h1]
  · rcases h3' with h3' | h3'
    · rw [h3']
      exact h3
    · exact .inr h3'

theorem drawBit_frame (d : DrawArgs) (r c : Nat) : DrawFrame s (drawBit d r c s) := by
  rcases drawBit_cases s d r c with h | h
  · rw [h]
    exact ⟨Eq.refl _, fun _ _ => Eq.refl _, .inl (Eq.refl _)⟩
  · rw [h]
    refine ⟨Eq.refl _, fun q hq => ?_, .inr ?_⟩
    · exact (readV_writeV s flagReg q 1).trans (if_neg (Ne.symm hq))
    · exact (readV_writeV s flagReg flagReg 1).trans (if_pos (Eq.refl _))

theorem drawRow_frame (d : DrawArgs) (r : Nat) (b : Byte) :
    ∀ (cs : List Nat) (s : State), DrawFrame s (drawRow d r b cs s)
  | [], s => DrawFrame.rfl s
  | c :: cs, s => by
    refine DrawFrame.trans ?_ (drawRow_frame d r b cs _)
    split
    · exact drawBit_frame s d r c
    · exact DrawFrame.rfl s

/-- Rows drawn without a fault change what drawing can change; a fault is that of the first row outside
memory, raised in such a state (R236, R264). -/
theorem drawRows_cases (d : DrawArgs) :
    ∀ (n r : Nat) (s : State),
      (∃ t, drawRows d n r s = .ok t ∧ DrawFrame s t ∧ (n = 0 ∨ dataAddress s (r + n - 1) ≤ 0xFFF)) ∨
      (∃ t k, drawRows d n r s = .error (raise t (.memOutOfRange (dataAddress s (r + k)))) ∧
        DrawFrame s t ∧ k < n ∧ 0xFFF < dataAddress s (r + k) ∧
        (k = 0 ∨ dataAddress s (r + k) = 0x1000))
  | 0, _, s => .inl ⟨s, rfl, DrawFrame.rfl s, .inl rfl⟩
  | n + 1, r, s => by
    unfold drawRows
    rw [memRead_eq]
    by_cases ha : dataAddress s r ≤ 0xFFF
    · simp only [ha, if_true]
      have hf := drawRow_frame d r (byteAt s (dataAddress s r)) [0, 1, 2, 3, 4, 5, 6, 7] s
      generalize drawRow d r _ _ s = u at hf ⊢
      have hi : u.i = s.i := by rw [hf.1]
      have hadd : ∀ k, dataAddress u k = dataAddress s k := fun k => by simp [dataAddress, hi]
      rcases drawRows_cases d n (r + 1) u with ⟨t, h1, h2, h3⟩ | ⟨t, k, h1, h2, h3, h4, h5⟩
      · refine .inl ⟨t, h1, hf.trans h2, .inr ?_⟩
        rcases h3 with h3 | h3
        · subst h3
          simpa using ha
        · rw [hadd] at h3
          have : r + 1 + n - 1 = r + (n + 1) - 1 := by omega
          rwa [this] at h3
      · refine .inr ⟨t, k + 1, ?_, hf.trans h2, by omega, ?_, ?_⟩
        · rw [h1, hadd]
          have : r + 1 + k = r + (k + 1) := by omega
          rw [this]
        · rw [hadd] at h4
          have : r + 1 + k = r + (k + 1) := by omega
          rwa [this] at h4
        · right
          rw [hadd] at h4 h5
          have : r + 1 + k = r + (k + 1) := by omega
          rw [this] at h4 h5
          rcases h5 with h5 | h5
          · subst h5
            unfold dataAddress at *
            omega
          · exact h5
    · simp only [ha, if_false]
      exact .inr ⟨s, 0, by simp, DrawFrame.rfl s, by omega, by simpa using Nat.lt_of_not_le ha, .inl rfl⟩

/-- Executors go on to a next state, raised or not (log 4). -/
theorem settle_next (e : Except State State) : ∃ t, settle e = .next t := by
  cases e <;> exact ⟨_, rfl⟩

end Sys2Proof.Machine
end

