-- ==== Sys2Proof/Laws/PerInstr.lean ====
section
/-! SUPPORT. Per instruction: its canonical word has the bits of its row of the opcode table (R91). -/

namespace Sys2Proof.Laws.TableWord

/-- The canonical word, under the row's mask, is the row's match. -/
def Statement (i : Instr) : Prop := encode i &&& tableMask i = tableMatch i

theorem sys (nnn : Addr12) : Statement (.sys nnn) := by
  simp only [Statement, tableMask, tableMatch, encode, and_maskA, fields_wordA _ nnn (by decide : 0 < 16)]
  decide

theorem jp (nnn : Addr12) : Statement (.jp nnn) := by
  simp only [Statement, tableMask, tableMatch, encode, and_maskA, fields_wordA _ nnn (by decide : 1 < 16)]
  decide

theorem jpV0 (nnn : Addr12) : Statement (.jpV0 nnn) := by
  simp only [Statement, tableMask, tableMatch, encode, and_maskA, fields_wordA _ nnn (by decide : 11 < 16)]
  decide

theorem call (nnn : Addr12) : Statement (.call nnn) := by
  simp only [Statement, tableMask, tableMatch, encode, and_maskA, fields_wordA _ nnn (by decide : 2 < 16)]
  decide

theorem ldI (nnn : Addr12) : Statement (.ldI nnn) := by
  simp only [Statement, tableMask, tableMatch, encode, and_maskA, fields_wordA _ nnn (by decide : 10 < 16)]
  decide

theorem seImm (x : Reg) (kk : Byte) : Statement (.seImm x kk) := by
  simp only [Statement, tableMask, tableMatch, encode, and_maskA, fields_wordXKK _ x kk (by decide : 3 < 16)]
  decide

theorem sneImm (x : Reg) (kk : Byte) : Statement (.sneImm x kk) := by
  simp only [Statement, tableMask, tableMatch, encode, and_maskA, fields_wordXKK _ x kk (by decide : 4 < 16)]
  decide

theorem ldImm (x : Reg) (kk : Byte) : Statement (.ldImm x kk) := by
  simp only [Statement, tableMask, tableMatch, encode, and_maskA, fields_wordXKK _ x kk (by decide : 6 < 16)]
  decide

theorem addImm (x : Reg) (kk : Byte) : Statement (.addImm x kk) := by
  simp only [Statement, tableMask, tableMatch, encode, and_maskA, fields_wordXKK _ x kk (by decide : 7 < 16)]
  decide

theorem rnd (x : Reg) (kk : Byte) : Statement (.rnd x kk) := by
  simp only [Statement, tableMask, tableMatch, encode, and_maskA, fields_wordXKK _ x kk (by decide : 12 < 16)]
  decide

theorem seReg (x y : Reg) : Statement (.seReg x y) := by
  simp only [Statement, tableMask, tableMatch, encode, and_maskA, fields_wordXYN _ x y _ (by decide : 5 < 16)]
  decide

theorem sneReg (x y : Reg) : Statement (.sneReg x y) := by
  simp only [Statement, tableMask, tableMatch, encode, and_maskA, fields_wordXYN _ x y _ (by decide : 9 < 16)]
  decide

theorem ldReg (x y : Reg) : Statement (.ldReg x y) := by
  simp only [Statement, tableMask, tableMatch, encode, and_maskXY, fields_wordXYN _ x y _ (by decide : 8 < 16)]
  decide

theorem addReg (x y : Reg) : Statement (.addReg x y) := by
  simp only [Statement, tableMask, tableMatch, encode, and_maskXY, fields_wordXYN _ x y _ (by decide : 8 < 16)]
  decide

theorem sub (x y : Reg) : Statement (.sub x y) := by
  simp only [Statement, tableMask, tableMatch, encode, and_maskXY, fields_wordXYN _ x y _ (by decide : 8 < 16)]
  decide

theorem subn (x y : Reg) : Statement (.subn x y) := by
  simp only [Statement, tableMask, tableMatch, encode, and_maskXY, fields_wordXYN _ x y _ (by decide : 8 < 16)]
  decide

theorem andReg (x y : Reg) : Statement (.andReg x y) := by
  simp only [Statement, tableMask, tableMatch, encode, and_maskXY, fields_wordXYN _ x y _ (by decide : 8 < 16)]
  decide

theorem orReg (x y : Reg) : Statement (.orReg x y) := by
  simp only [Statement, tableMask, tableMatch, encode, and_maskXY, fields_wordXYN _ x y _ (by decide : 8 < 16)]
  decide

theorem xorReg (x y : Reg) : Statement (.xorReg x y) := by
  simp only [Statement, tableMask, tableMatch, encode, and_maskXY, fields_wordXYN _ x y _ (by decide : 8 < 16)]
  decide

theorem shr (x y : Reg) : Statement (.shr x y) := by
  simp only [Statement, tableMask, tableMatch, encode, and_maskXY, fields_wordXYN _ x y _ (by decide : 8 < 16)]
  decide

theorem shl (x y : Reg) : Statement (.shl x y) := by
  simp only [Statement, tableMask, tableMatch, encode, and_maskXY, fields_wordXYN _ x y _ (by decide : 8 < 16)]
  decide

theorem addI (x : Reg) : Statement (.addI x) := by
  simp only [Statement, tableMask, tableMatch, encode, and_maskX, fields_wordXKK _ x _ (by decide : 15 < 16)]
  decide

theorem bcd (x : Reg) : Statement (.bcd x) := by
  simp only [Statement, tableMask, tableMatch, encode, and_maskX, fields_wordXKK _ x _ (by decide : 15 < 16)]
  decide

theorem storeRegs (x : Reg) : Statement (.storeRegs x) := by
  simp only [Statement, tableMask, tableMatch, encode, and_maskX, fields_wordXKK _ x _ (by decide : 15 < 16)]
  decide

theorem loadRegs (x : Reg) : Statement (.loadRegs x) := by
  simp only [Statement, tableMask, tableMatch, encode, and_maskX, fields_wordXKK _ x _ (by decide : 15 < 16)]
  decide

theorem ldFont (x : Reg) : Statement (.ldFont x) := by
  simp only [Statement, tableMask, tableMatch, encode, and_maskX, fields_wordXKK _ x _ (by decide : 15 < 16)]
  decide

theorem readDt (x : Reg) : Statement (.readDt x) := by
  simp only [Statement, tableMask, tableMatch, encode, and_maskX, fields_wordXKK _ x _ (by decide : 15 < 16)]
  decide

theorem writeDt (x : Reg) : Statement (.writeDt x) := by
  simp only [Statement, tableMask, tableMatch, encode, and_maskX, fields_wordXKK _ x _ (by decide : 15 < 16)]
  decide

theorem writeSt (x : Reg) : Statement (.writeSt x) := by
  simp only [Statement, tableMask, tableMatch, encode, and_maskX, fields_wordXKK _ x _ (by decide : 15 < 16)]
  decide

theorem waitKey (x : Reg) : Statement (.waitKey x) := by
  simp only [Statement, tableMask, tableMatch, encode, and_maskX, fields_wordXKK _ x _ (by decide : 15 < 16)]
  decide

theorem skp (x : Reg) : Statement (.skp x) := by
  simp only [Statement, tableMask, tableMatch, encode, and_maskE, fields_wordXKK _ x _ (by decide : 14 < 16)]
  decide

theorem sknp (x : Reg) : Statement (.sknp x) := by
  simp only [Statement, tableMask, tableMatch, encode, and_maskE, fields_wordXKK _ x _ (by decide : 14 < 16)]
  decide

theorem drw (x y : Reg) (n : BitVec 4) : Statement (.drw x y n) := by
  simp only [Statement, tableMask, tableMatch, encode, and_maskA, fields_wordXYN _ x y n (by decide : 13 < 16)]
  decide

theorem ret : Statement .ret := by
  unfold Statement
  decide

theorem cls : Statement .cls := by
  unfold Statement
  decide

end Sys2Proof.Laws.TableWord
end

