-- ==== Sys2Proof/Laws/Transfer.lean ====
section
/-! SUPPORT. Block store, block load and BCD: what their byte-by-byte loops do, and the first address at
which they fault (R190-R192, R264). -/

namespace Sys2Proof.Machine

/-- A block store inside memory writes each register's byte at its address and nothing else (R191). -/
theorem storeList_ok (base : Nat) :
    ∀ (ks : List Reg) (s : State), MemoryOk s → (∀ k ∈ ks, base + k.val ≤ 0xFFF) →
      ∃ t, storeList base ks s = .ok t ∧ t = { s with mem := t.mem } ∧ MemoryOk t ∧
        (∀ k ∈ ks, byteAt t (base + k.val) = readV s k) ∧
        (∀ a, (∀ k ∈ ks, a ≠ base + k.val) → byteAt t a = byteAt s a)
  | [], s, hm, _ => ⟨s, rfl, rfl, hm, by simp, fun _ _ => rfl⟩
  | k :: ks, s, hm, hr => by
    have hk : base + k.val ≤ 0xFFF := hr k (by simp)
    have hw : memWrite s (base + k.val) (readV s k)
        = .ok { s with mem := s.mem.write (base + k.val) (readV s k) } := by
      rw [memWrite_eq, if_pos hk]
    have hread := fun j => byteAt_memWrite (j := j) s hm hw
    obtain ⟨t, h1, h2, h3, h4, h5⟩ := storeList_ok base ks
      { s with mem := s.mem.write (base + k.val) (readV s k) } (Memory.wf_write hk hm)
      (fun j hj => hr j (by simp [hj]))
    refine ⟨t, by simp [storeList, hw, h1], h2, h3, ?_, ?_⟩
    · intro j hj
      by_cases hjs : j ∈ ks
      · exact h4 j hjs
      · have hjk : j = k := by simpa [hjs] using hj
        subst hjk
        rw [h5 (base + j.val), hread]
        · simp
        · intro i hi heq
          have : i = j := Fin.ext (by omega)
          exact hjs (this ▸ hi)
    · intro a ha
      rw [h5 a (fun i hi => ha i (by simp [hi])), hread, if_neg (ha k (by simp))]

/-- A block load inside memory reads each register's byte from its address and writes nothing else
(R192). -/
theorem loadList_ok (base : Nat) :
    ∀ (ks : List Reg) (s : State), (∀ k ∈ ks, base + k.val ≤ 0xFFF) →
      ∃ t, loadList base ks s = .ok t ∧ t = { s with v := t.v } ∧
        (∀ k ∈ ks, readV t k = byteAt s (base + k.val)) ∧
        (∀ q, q ∉ ks → readV t q = readV s q)
  | [], s, _ => ⟨s, rfl, rfl, by simp, fun _ _ => rfl⟩
  | k :: ks, s, hr => by
    have hk : base + k.val ≤ 0xFFF := hr k (by simp)
    obtain ⟨t, h1, h2, h3, h4⟩ := loadList_ok base ks (writeV s k (byteAt s (base + k.val)))
      (fun j hj => hr j (by simp [hj]))
    refine ⟨t, by simp [loadList, memRead_eq, hk, h1], h2, ?_, ?_⟩
    · intro j hj
      by_cases hjs : j ∈ ks
      · rw [h3 j hjs]
        rfl
      · have hjk : j = k := by simpa [hjs] using hj
        subst hjk
        rw [h4 j hjs]
        simp
    · intro q hq
      have hqk : ¬ k = q := fun e => hq (by simp [e])
      rw [h4 q (fun h => hq (by simp [h]))]
      simp [hqk]

/-- A list of registers with one out of range splits at the first of them. -/
theorem split_first_out (base : Nat) :
    ∀ (ks : List Reg), (∃ k ∈ ks, 0xFFF < base + k.val) →
      ∃ pre k post, ks = pre ++ k :: post ∧ (∀ j ∈ pre, base + j.val ≤ 0xFFF) ∧ 0xFFF < base + k.val
  | [], h => by simp at h
  | k :: ks, h => by
    by_cases hk : 0xFFF < base + k.val
    · exact ⟨[], k, ks, rfl, by simp, hk⟩
    · obtain ⟨pre, j, post, h1, h2, h3⟩ := split_first_out base ks (by simpa [hk] using h)
      refine ⟨k :: pre, j, post, by simp [h1], ?_, h3⟩
      intro i hi
      rcases List.mem_cons.1 hi with rfl | hi
      · omega
      · exact h2 i hi

/-- A block store faults at the first address above 0xFFF (R264). -/
theorem storeList_error (base : Nat) (k : Reg) (post : List Reg) (hk : 0xFFF < base + k.val) :
    ∀ (pre : List Reg) (s : State), (∀ j ∈ pre, base + j.val ≤ 0xFFF) →
      ∃ u, storeList base (pre ++ k :: post) s = .error (raise u (.memOutOfRange (base + k.val))) ∧
        u = { s with mem := u.mem }
  | [], s, _ => by
    refine ⟨s, ?_, rfl⟩
    have : ¬ base + k.val ≤ 0xFFF := by omega
    simp [storeList, memWrite_eq, this]
  | j :: pre, s, h => by
    have hj : base + j.val ≤ 0xFFF := h j (by simp)
    obtain ⟨u, h1, h2⟩ := storeList_error base k post hk pre
      { s with mem := s.mem.write (base + j.val) (readV s j) } (fun i hi => h i (by simp [hi]))
    exact ⟨u, by simp [storeList, memWrite_eq, hj, h1], h2⟩

/-- A block load faults at the first address above 0xFFF (R264). -/
theorem loadList_error (base : Nat) (k : Reg) (post : List Reg) (hk : 0xFFF < base + k.val) :
    ∀ (pre : List Reg) (s : State), (∀ j ∈ pre, base + j.val ≤ 0xFFF) →
      ∃ u, loadList base (pre ++ k :: post) s = .error (raise u (.memOutOfRange (base + k.val))) ∧
        u = { s with v := u.v }
  | [], s, _ => by
    refine ⟨s, ?_, rfl⟩
    have : ¬ base + k.val ≤ 0xFFF := by omega
    simp [loadList, memRead_eq, this]
  | j :: pre, s, h => by
    have hj : base + j.val ≤ 0xFFF := h j (by simp)
    obtain ⟨u, h1, h2⟩ := loadList_error base k post hk pre (writeV s j (byteAt s (base + j.val)))
      (fun i hi => h i (by simp [hi]))
    exact ⟨u, by simp [loadList, memRead_eq, hj, h1], h2⟩

/-- Whatever a block store does, only memory and the fault record change, and memory stays canonical. -/
theorem storeList_frame (base : Nat) :
    ∀ (ks : List Reg) (s t : State), (storeList base ks s = .ok t ∨ storeList base ks s = .error t) →
      t = { s with mem := t.mem, fault := t.fault } ∧ (MemoryOk s → MemoryOk t)
  | [], s, t, h => by
    rcases h with h | h <;> simp [storeList] at h
    subst h
    exact ⟨rfl, id⟩
  | k :: ks, s, t, h => by
    by_cases hk : base + k.val ≤ 0xFFF
    · simp only [storeList, memWrite_eq, hk, if_true] at h
      obtain ⟨h1, h2⟩ := storeList_frame base ks _ t h
      exact ⟨h1, fun hm => h2 (Memory.wf_write hk hm)⟩
    · simp only [storeList, memWrite_eq, hk, if_false] at h
      rcases h with h | h
      · simp at h
      · injection h with h
        subst h
        unfold raise
        split <;> exact ⟨rfl, id⟩

/-- Whatever a block load does, only the V registers and the fault record change. -/
theorem loadList_frame (base : Nat) :
    ∀ (ks : List Reg) (s t : State), (loadList base ks s = .ok t ∨ loadList base ks s = .error t) →
      t = { s with v := t.v, fault := t.fault }
  | [], s, t, h => by
    rcases h with h | h <;> simp [loadList] at h
    subst h
    rfl
  | k :: ks, s, t, h => by
    by_cases hk : base + k.val ≤ 0xFFF
    · simp only [loadList, memRead_eq, hk, if_true] at h
      have hf := loadList_frame base ks (writeV s k (byteAt s (base + k.val))) t h
      exact hf
    · simp only [loadList, memRead_eq, hk, if_false] at h
      rcases h with h | h
      · simp at h
      · injection h with h
        subst h
        unfold raise
        split <;> rfl

/-- Whatever BCD's writes do, only memory and the fault record change, and memory stays canonical. -/
theorem writeBytes_frame :
    ∀ (bs : List Byte) (a : Nat) (s t : State),
      (writeBytes s a bs = .ok t ∨ writeBytes s a bs = .error t) →
      t = { s with mem := t.mem, fault := t.fault } ∧ (MemoryOk s → MemoryOk t)
  | [], a, s, t, h => by
    rcases h with h | h <;> simp [writeBytes] at h
    subst h
    exact ⟨rfl, id⟩
  | b :: bs, a, s, t, h => by
    by_cases ha : a ≤ 0xFFF
    · simp only [writeBytes, memWrite_eq, ha, if_true] at h
      obtain ⟨h1, h2⟩ := writeBytes_frame bs (a + 1) _ t h
      exact ⟨h1, fun hm => h2 (Memory.wf_write ha hm)⟩
    · simp only [writeBytes, memWrite_eq, ha, if_false] at h
      rcases h with h | h
      · simp at h
      · injection h with h
        subst h
        unfold raise
        split <;> exact ⟨rfl, id⟩

end Sys2Proof.Machine
end

