-- ==== Sys2Proof/Laws/Step.lean ====
section
/-! SUPPORT. What an execution, a cycle and a step can do, said once. -/

namespace Sys2Proof.Machine

/-- A cycle that answers `t` was a no-op, or ended at the fetch, or met an illegal word, or executed the
decoded instruction (R273). -/
theorem cycle_cases {s t : State} (h : cycle s = .next t) :
    (executes s = false ∧ t = s) ∨
      (executes s = true ∧ fetch s = .error t) ∨
      (∃ w e, executes s = true ∧ fetch s = .ok w ∧ decode w = .error e ∧
        t = raise s (.illegalInstruction w s.pc)) ∨
      (∃ w i u, executes s = true ∧ fetch s = .ok w ∧ decode w = .ok i ∧
        exec i { s with pcSet := false } = .next u ∧ t = advance u) := by
  unfold cycle at h
  split at h
  · rename_i he
    split at h
    · rename_i u hf
      injection h with h
      subst h
      exact .inr (.inl ⟨he, hf⟩)
    · rename_i w hf
      split at h
      · rename_i e hd
        injection h with h
        exact .inr (.inr (.inl ⟨w, e, he, hf, hd, h.symm⟩))
      · rename_i i hd
        unfold runInstr at h
        split at h
        · rename_i u hx
          injection h with h
          exact .inr (.inr (.inr ⟨w, i, u, he, hf, hd, hx, h.symm⟩))
        · cases h
        · cases h
  · rename_i he
    injection h with h
    exact .inl ⟨by simpa using he, h.symm⟩

/-- A step that answers `t` found no tick to run, or ran one cycle and the tick's bookkeeping (R274). -/
theorem step_cases {s t : State} (h : step s = .next t) :
    (s.tickPos = 0 ∧ executes s = false ∧ t = s) ∨ (∃ u, cycle s = .next u ∧ t = afterCycle u) := by
  unfold step tickSlot at h
  split at h
  · rename_i hc
    injection h with h
    exact .inl ⟨hc.1, hc.2, h.symm⟩
  · split at h
    · rename_i u hu
      injection h with h
      exact .inr ⟨u, hu, h.symm⟩
    · cases h
    · cases h

/-- The end of a cycle changes at most PC. -/
theorem advance_eq (s : State) : advance s = { s with pc := (advance s).pc } := by
  unfold advance
  split <;> rfl

/-- The tick's bookkeeping changes at most the timers and the tick position. -/
theorem afterCycle_eq (s : State) :
    afterCycle s
      = { s with dt := (afterCycle s).dt, st := (afterCycle s).st, tickPos := (afterCycle s).tickPos } := by
  unfold afterCycle
  split
  · rfl
  · split <;> rfl

end Sys2Proof.Machine
end

