-- ==== Sys2Proof/Tests/Slice0.lean ====
section
/-! SUPPORT. Tests of the model against the spec's own examples and vectors (95_test_vectors.md; the id of
the vector stands above each test), and a named witness for the hypotheses of every obligation. -/

namespace Sys2Proof.Tests

open Sys2Proof.Machine

/-! ## Helpers -/

/-- The start state of the vectors: the word under test at 0x200, the core executing. -/
def start (w : Nat) : State := State.reset.withFetchWord 16 w

/-- Bytes in memory from an address on. -/
def withBytes (s : State) (addr : Nat) (bytes : List Byte) : State :=
  { s with mem := pokeBytes s.mem addr bytes }

/-- The state after one step. -/
def stepped (s : State) : State :=
  match step s with
  | .next t => t
  | .fault _ | .refused _ => s

/-- The state after one tick. -/
def ticked (s : State) : State :=
  match runTick s with
  | .next t => t
  | .fault _ | .refused _ => s

/-- A booted core (R306) with a program and no font. -/
def booted (image : List Byte) : State :=
  { withBytes State.reset 0x200 image with halted := false }

/-- `PC` and one register. -/
def pcV (s : State) (x : Reg) : Nat × Byte := (s.pc.toNat, readV s x)

/-- `PC`, one register and `VF`. -/
def pcVF (s : State) (x : Reg) : Nat × Byte × Byte := (s.pc.toNat, readV s x, readV s 15)

/-! ## Well-formedness -/

/-- A SYS with the word of CLS or RET is ill-formed (R85). -/
theorem test_wellFormed_refuses_sys_e0 : (Instr.sys 0x1E0).wellFormed = false := by decide
theorem test_wellFormed_refuses_sys_ee : (Instr.sys 0x0EE).wellFormed = false := by decide
theorem test_wellFormed_accepts_sys_e1 : (Instr.sys 0x0E1).wellFormed = true := by decide

/-! ## Decoding: the words are the spec's, written out from R91 -/

theorem test_decode_control_flow :
    decode 0x0300 = .ok (.sys 0x300) ∧ decode 0x1228 = .ok (.jp 0x228) ∧
    decode 0xB3F1 = .ok (.jpV0 0x3F1) ∧ decode 0x2345 = .ok (.call 0x345) ∧
    decode 0x00EE = .ok .ret ∧ decode 0x3A05 = .ok (.seImm 10 5) ∧
    decode 0x41FF = .ok (.sneImm 1 0xFF) ∧ decode 0x5120 = .ok (.seReg 1 2) ∧
    decode 0x9CF0 = .ok (.sneReg 12 15) := by decide

theorem test_decode_load_move :
    decode 0x6FAB = .ok (.ldImm 15 0xAB) ∧ decode 0x8120 = .ok (.ldReg 1 2) ∧
    decode 0xA2F0 = .ok (.ldI 0x2F0) := by decide

theorem test_decode_arithmetic :
    decode 0x7305 = .ok (.addImm 3 5) ∧ decode 0x8124 = .ok (.addReg 1 2) ∧
    decode 0x8125 = .ok (.sub 1 2) ∧ decode 0x8127 = .ok (.subn 1 2) ∧
    decode 0x8122 = .ok (.andReg 1 2) ∧ decode 0x8121 = .ok (.orReg 1 2) ∧
    decode 0x8123 = .ok (.xorReg 1 2) ∧ decode 0xF41E = .ok (.addI 4) ∧
    decode 0x8126 = .ok (.shr 1 2) ∧ decode 0x812E = .ok (.shl 1 2) ∧
    decode 0xC30F = .ok (.rnd 3 0x0F) := by decide

theorem test_decode_memory_timers :
    decode 0xF533 = .ok (.bcd 5) ∧ decode 0xF255 = .ok (.storeRegs 2) ∧
    decode 0xF265 = .ok (.loadRegs 2) ∧ decode 0xF229 = .ok (.ldFont 2) ∧
    decode 0xF307 = .ok (.readDt 3) ∧ decode 0xF315 = .ok (.writeDt 3) ∧
    decode 0xF318 = .ok (.writeSt 3) := by decide

theorem test_decode_keyboard_display :
    decode 0xE19E = .ok (.skp 1) ∧ decode 0xE1A1 = .ok (.sknp 1) ∧
    decode 0xF30A = .ok (.waitKey 3) ∧ decode 0xD125 = .ok (.drw 1 2 5) ∧
    decode 0x00E0 = .ok .cls := by decide

/-- Words that are not canonical but decode (CF14, CF20, KB6, KB7, DC7, DC8, DC9). -/
theorem test_decode_other_words :
    decode 0x03EE = .ok .ret ∧ decode 0x5127 = .ok (.seReg 1 2) ∧ decode 0x912F = .ok (.sneReg 1 2) ∧
    decode 0xE100 = .ok (.skp 1) ∧ decode 0xE1FF = .ok (.sknp 1) ∧ decode 0x01E0 = .ok .cls ∧
    decode 0x0FEE = .ok .ret ∧ decode 0x00E1 = .ok (.sys 0x0E1) := by decide

/-- Illegal words (DC1 to DC4, DC10), and the named alternative of family F (DC5, DC6). -/
theorem test_decode_illegal :
    decode 0x8008 = .error (.illegal 0x8008) ∧ decode 0x800F = .error (.illegal 0x800F) ∧
    decode 0xF000 = .error (.illegal 0xF000) ∧ decode 0xF02C = .error (.illegal 0xF02C) ∧
    decode 0xFFFF = .error (.illegal 0xFFFF) ∧
    decodeWith .nibbleTree 0xF02C = .ok (.ldFont 0) ∧
    decodeWith .nibbleTree 0xF01F = .error (.illegal 0xF01F) := by decide

/-- Bytes are read big-endian (R65), and one byte is no word (R80). -/
theorem test_decode_bytes :
    decodeBytes [0x12, 0x28, 0x99] = .ok (.jp 0x228, [0x99]) ∧
    decodeBytes [0x12] = .error .truncated ∧
    decodeTableWord 16 0x1228 = some (.jp 0x228) ∧ decodeTableWord 16 0x8008 = none := by decide

/-- The encoder writes the words of R91. -/
theorem test_encode_canonical :
    encode (.seReg 1 2) = 0x5120 ∧ encode (.skp 1) = 0xE19E ∧ encode (.sknp 1) = 0xE1A1 ∧
    encode (.shl 1 2) = 0x812E ∧ encode (.loadRegs 2) = 0xF265 ∧ encode .ret = 0x00EE ∧
    encodeBytes (.drw 1 2 5) = [0xD1, 0x25] := by decide

/-! ## Control flow (95: CF) -/

/-- CF1. -/
theorem test_sys : ((stepped (start 0x0300)).pc.toNat, (stepped (start 0x0300)).sp.val) = (0x300, 0) := by
  decide
/-- CF3. -/
theorem test_jp : (stepped (start 0x1228)).pc = 0x228 := by decide
/-- CF4: a jump to itself sets `pc_set`, so PC does not advance. -/
theorem test_jp_to_itself : (stepped (start 0x1200)).pc = 0x200 := by decide
/-- CF5: the odd target faults at the next fetch. -/
theorem test_jp_odd :
    (stepped (start 0x1201)).pc = 0x201 ∧
    (stepped (stepped (start 0x1201))).fault = some (.misalignedFetch 0x201) := by decide
/-- CF7: the sum is not masked to 12 bits. -/
theorem test_jpV0 :
    (stepped (writeV (start 0xBFFF) 0 0xFF)).pc = 0x10FE ∧
    (stepped (stepped (writeV (start 0xBFFF) 0 0xFF))).fault = some (.memOutOfRange 0x10FE) := by decide
/-- CF10. -/
theorem test_call :
    let t := stepped { start 0x2300 with sp := 15 }
    t.stack[15] = 0x202 ∧ t.sp = 16 ∧ t.pc = 0x300 := by decide
/-- CF11. -/
theorem test_call_overflow :
    stepped { start 0x2300 with sp := 16 }
      = { start 0x2300 with sp := 16, fault := some (.stackOverflow 0x200) } := by decide
/-- CF12. -/
theorem test_ret :
    let t := stepped { start 0x00EE with sp := 1, stack := (start 0).stack.set 0 0x202 }
    t.pc = 0x202 ∧ t.sp = 0 ∧ t.stack[0] = 0x202 := by decide
/-- CF13. -/
theorem test_ret_underflow :
    (stepped (start 0x00EE)).fault = some (.stackUnderflow 0x200) ∧
    (stepped (start 0x00EE)).pc = 0x200 := by decide
/-- CF15, CF16. -/
theorem test_seImm :
    (stepped (writeV (start 0x3005) 0 5)).pc = 0x204 ∧
    (stepped (writeV (start 0x3005) 0 6)).pc = 0x202 := by decide
/-- CF17, CF18. -/
theorem test_sneImm :
    (stepped (writeV (start 0x4105) 1 5)).pc = 0x202 ∧ (stepped (start 0x4105)).pc = 0x204 := by decide
/-- CF20, CF21. -/
theorem test_seReg :
    (stepped (writeV (writeV (start 0x5127) 1 0x33) 2 0x33)).pc = 0x204 ∧
    (stepped (writeV (writeV (start 0x5120) 1 1) 2 2)).pc = 0x202 := by decide
/-- CF23, CF24. -/
theorem test_sneReg :
    (stepped (writeV (writeV (start 0x9120) 1 1) 2 2)).pc = 0x204 ∧
    (stepped (writeV (start 0x9110) 1 9)).pc = 0x202 := by decide
/-- CF25: a skip past the top of memory. -/
theorem test_skip_past_top :
    let t := stepped ({ State.reset with pc := 0xFFC }.withFetchWord 16 0x3000)
    t.pc = 0x1000 ∧ (stepped t).fault = some (.memOutOfRange 0x1000) := by decide

/-! ## Load and move (95: LM) -/

/-- LM2. -/
theorem test_ldImm : pcV (stepped (start 0x6FAB)) 15 = (0x202, 0xAB) := by decide
/-- LM3. -/
theorem test_ldReg : pcV (stepped (writeV (start 0x8120) 2 0x7F)) 1 = (0x202, 0x7F) := by decide
/-- LM5. -/
theorem test_ldI : (stepped { start 0xA2F0 with i := 0xFFFF }).i = 0x02F0 := by decide

/-! ## Arithmetic, logic, shifts, random (95: AR) -/

/-- AR1. -/
theorem test_addImm : pcVF (stepped (writeV (start 0x7305) 3 0xFE)) 3 = (0x202, 0x03, 0) := by decide
/-- AR2: to VF, the sum and no flag. -/
theorem test_addImm_vf : readV (stepped (writeV (start 0x7F01) 15 0xFF)) 15 = 0 := by decide
/-- AR4. -/
theorem test_addReg :
    pcVF (stepped (writeV (writeV (start 0x8124) 1 0x80) 2 0x80)) 1 = (0x202, 0, 1) := by decide
/-- AR6 and AR7: VF as the destination and as the source. -/
theorem test_addReg_vf :
    readV (stepped (writeV (writeV (start 0x8F14) 15 0x10) 1 0xF5)) 15 = 1 ∧
    pcVF (stepped (writeV (writeV (start 0x81F4) 1 1) 15 0xFF)) 1 = (0x202, 0, 1) := by decide
/-- AR9, AR11. -/
theorem test_sub :
    pcVF (stepped (writeV (writeV (start 0x8125) 1 3) 2 5)) 1 = (0x202, 0xFE, 0) ∧
    pcVF (stepped (writeV (writeV (start 0x8125) 1 7) 2 7)) 1 = (0x202, 0, 1) := by decide
/-- AR12. -/
theorem test_sub_vf : readV (stepped (writeV (writeV (start 0x8F15) 15 2) 1 5)) 15 = 0 := by decide
/-- AR14, AR15. -/
theorem test_subn :
    pcVF (stepped (writeV (writeV (start 0x8127) 1 3) 2 5)) 1 = (0x202, 2, 1) ∧
    pcVF (stepped (writeV (writeV (start 0x8127) 1 5) 2 3)) 1 = (0x202, 0xFE, 0) := by decide
/-- AR16. -/
theorem test_subn_vf : readV (stepped (writeV (writeV (start 0x8F17) 15 9) 1 4)) 15 = 0 := by decide
/-- AR17. -/
theorem test_and :
    pcVF (stepped (writeV (writeV (writeV (start 0x8122) 1 0x3C) 2 0x0F) 15 1)) 1 = (0x202, 0x0C, 1) := by
  decide
/-- AR18. -/
theorem test_or :
    pcVF (stepped (writeV (writeV (start 0x8121) 1 0x30) 2 0x0C)) 1 = (0x202, 0x3C, 0) := by decide
/-- AR19. -/
theorem test_xor : readV (stepped (writeV (writeV (start 0x8123) 1 0xFF) 2 0x0F)) 1 = 0xF0 := by decide
/-- AR22, AR23. -/
theorem test_addI :
    (stepped { writeV (start 0xF41E) 4 2 with i := 0xFFFF }).i = 1 ∧
    (stepped { writeV (start 0xF41E) 4 1 with i := 0x0FFF }).i = 0x1000 := by decide
/-- AR24, AR25. -/
theorem test_shr :
    pcVF (stepped (writeV (writeV (start 0x8126) 1 5) 2 0x80)) 1 = (0x202, 2, 1) ∧
    pcVF (stepped { writeV (writeV (start 0x8126) 1 5) 2 0x80 with qShiftVy := true }) 1
      = (0x202, 0x40, 0) := by decide
/-- AR26, AR27. -/
theorem test_shr_vf :
    readV (stepped (writeV (start 0x8F06) 15 2)) 15 = 0 ∧
    pcVF (stepped { writeV (writeV (start 0x81F6) 1 0x22) 15 1 with qShiftVy := true }) 1
      = (0x202, 0, 1) := by decide
/-- AR28, AR29. -/
theorem test_shl :
    pcVF (stepped (writeV (writeV (start 0x812E) 1 0x81) 2 1)) 1 = (0x202, 2, 1) ∧
    pcVF (stepped { writeV (writeV (start 0x812E) 1 0x81) 2 1 with qShiftVy := true }) 1
      = (0x202, 2, 0) := by decide
/-- AR30. -/
theorem test_shl_vf : readV (stepped (writeV (start 0x8F0E) 15 0xC0)) 15 = 1 := by decide
/-- AR33: the mask 0 gives 0 whatever is drawn. -/
theorem test_rnd (d : Nat) :
    readV (writeV State.reset 3 (Config.randomByte d &&& 0)) 3 = 0 ∧
    exec (.rnd 3 0) State.reset
      = .next { writeV State.reset 3 (Config.randomByte 0 &&& 0) with draws := 1 } :=
  ⟨by simp [readV_writeV], rfl⟩

/-! ## Memory transfer (95: MT) -/

/-- MT1. -/
theorem test_bcd :
    let t := stepped { writeV (start 0xF533) 5 0xFE with i := 0x300 }
    (byteAt t 0x300, byteAt t 0x301, byteAt t 0x302, t.i) = (2, 5, 4, 0x300) := by decide
/-- MT5: the fault and PC. -/
theorem test_bcd_top :
    let t := stepped { writeV (start 0xF533) 5 123 with i := 0xFFE }
    (t.fault, t.pc) = (some (.memOutOfRange 0x1000), 0x200) := by decide
/-- MT6. -/
theorem test_storeRegs :
    let s := writeV (writeV (writeV (start 0xF255) 0 1) 1 2) 2 3
    let t := stepped { s with i := 0x300, qIncI := true }
    (byteAt t 0x300, byteAt t 0x301, byteAt t 0x302, byteAt t 0x303, t.i) = (1, 2, 3, 0, 0x303) := by decide
/-- MT9. -/
theorem test_storeRegs_all :
    let t := stepped { writeV (start 0xFF55) 15 0xEE with i := 0x300, qIncI := true }
    (byteAt t 0x30E, byteAt t 0x30F, t.i) = (0, 0xEE, 0x310) := by decide
/-- MT12. -/
theorem test_loadRegs :
    let t := stepped { withBytes (start 0xF265) 0x300 [0x0A, 0x0B, 0x0C, 0x0D] with i := 0x300 }
    (readV t 0, readV t 1, readV t 2, readV t 3, t.i) = (0x0A, 0x0B, 0x0C, 0, 0x300) := by decide
/-- MT14: the fault and PC. -/
theorem test_loadRegs_top :
    let t := stepped { withBytes (start 0xF165) 0xFFF [0x12] with i := 0xFFF }
    (t.fault, t.pc) = (some (.memOutOfRange 0x1000), 0x200) := by decide
/-- MT16, MT18. -/
theorem test_ldFont :
    (stepped (writeV (start 0xF229) 2 0x0F)).i = 0x004B ∧
    (stepped (writeV (start 0xF229) 2 0xFF)).i = 0x04FB := by decide

/-! ## Timers and ticks (95: TM, TK) -/

/-- TM1. -/
theorem test_readDt :
    let t := stepped { start 0xF307 with dt := 0x3C }
    (readV t 3, t.dt) = (0x3C, 0x3C) := by decide
/-- TM2. -/
theorem test_writeDt : (stepped (writeV (start 0xF315) 3 0x3C)).dt = 0x3C := by decide
/-- TM3. -/
theorem test_writeSt :
    let t := stepped (writeV (start 0xF318) 3 5)
    (t.st, soundActive t) = (5, true) := by decide
/-- TK1. -/
theorem test_tick_decrements :
    let t := ticked { booted [0x12, 0x00] with dt := 3, st := 1 }
    (t.dt, t.st, t.pc, soundActive t) = (2, 0, 0x200, false) := by decide
/-- TK3. -/
theorem test_tick_halted :
    ticked (hostHalt { booted [0x12, 0x00] with dt := 5 })
      = hostHalt { booted [0x12, 0x00] with dt := 5 } := by decide
/-- TK4. -/
theorem test_tick_wait :
    let t := ticked { booted [0xF0, 0x0A, 0x12, 0x02] with dt := 5 }
    (t.keyWait, t.dt, t.pc) = (some 0, 4, 0x202) ∧ ticked t = t := by decide
/-- TK5. -/
theorem test_tick_fault :
    let t := ticked { booted [0x60, 0x01, 0x80, 0x08] with dt := 5 }
    (readV t 0, t.fault, t.dt) = (1, some (.illegalInstruction 0x8008 0x202), 5) := by decide

/-! ## Keyboard (95: KB) -/

/-- KB1, KB2. -/
theorem test_skp :
    (stepped (setKeyState 5 true (writeV (start 0xE19E) 1 5))).pc = 0x204 ∧
    (stepped (writeV (start 0xE19E) 1 5)).pc = 0x202 := by decide
/-- KB5. -/
theorem test_skp_fault :
    (stepped (writeV (start 0xE19E) 1 0x10)).fault = some (.keyIndexOutOfRange 0x10) := by decide
/-- KB3, KB4. -/
theorem test_sknp :
    (stepped (writeV (start 0xE1A1) 1 5)).pc = 0x204 ∧
    (stepped (setKeyState 5 true (writeV (start 0xE1A1) 1 5))).pc = 0x202 := by decide
/-- KB8. -/
theorem test_waitKey :
    let t := stepped (start 0xF30A)
    (t.keyWait, t.pc, mode t) = (some 3, 0x202, .blockedOnKey) := by decide
/-- KB9. -/
theorem test_waitKey_delivery :
    let t := acceptKey 11 (stepped (start 0xFF0A))
    (readV t 15, t.keyWait, t.pc) = (11, none, 0x202) := by decide

/-! ## Display (95: DI) -/

/-- DI3b: a wrap that lands in the field. -/
theorem test_drw_wrap :
    let t := stepped { withBytes (writeV (start 0xD012) 1 33) 0x300 [0x80, 0x80] with i := 0x300 }
    (Bitmap.pixel t.bitmap 0 1, Bitmap.pixel t.bitmap 0 2, Bitmap.pixel t.bitmap 0 0, readV t 15, t.pc)
      = (true, true, false, 0, 0x202) := by decide
/-- DI6, the second draw: only pixel (1, 0) collides. -/
theorem test_drw_collision :
    let d := stepped { withBytes (start 0xD011) 0x300 [0xC0, 0x60] with i := 0x300 }
    let t := stepped { d with i := 0x301, pc := 0x200 }
    (Bitmap.pixel t.bitmap 0 0, Bitmap.pixel t.bitmap 1 0, Bitmap.pixel t.bitmap 2 0, readV t 15)
      = (true, false, true, 1) := by decide
/-- DI7 and DI7b: the corner read from VF, before and after it is cleared. -/
theorem test_draw_sampling :
    let s := { withBytes (writeV (start 0xDF01) 15 5) 0x300 [0xA0] with
      i := 0x300, bitmap := Bitmap.toggle Bitmap.blank 5 0 (by decide) }
    let lit := fun (m : DrawSampling) =>
      match drawSprite (fun b _ _ => (b, false)) m 15 0 1 s with
      | .ok t => [Bitmap.pixel t.bitmap 0 0, Bitmap.pixel t.bitmap 2 0, Bitmap.pixel t.bitmap 5 0,
          Bitmap.pixel t.bitmap 7 0, decide (readV t 15 = 1)]
      | .error _ => []
    lit .latched = [false, false, false, true, true] ∧ lit .live = [true, true, true, false, false] := by
  decide
/-- The wraps of R235's text. -/
theorem test_wrap : (wrap 64 64, wrap 65 64, wrap 200 64, wrap 33 32) = (64, 1, 136, 1) := by decide
/-- DI9. -/
theorem test_cls :
    let t := stepped { start 0x00E0 with bitmap := Bitmap.toggle Bitmap.blank 3 3 (by decide) }
    (Bitmap.pixel t.bitmap 3 3, t.pc) = (false, 0x202) := by decide

/-! ## Fetch, reset and the host (95: FE, RS, LD, ST, FT) -/

/-- FE1, FE3. -/
theorem test_fetch_faults :
    (stepped { booted [] with pc := 0x201 }).fault = some (.misalignedFetch 0x201) ∧
    (stepped { booted [] with pc := 0x1000 }).fault = some (.memOutOfRange 0x1000) := by decide
/-- FE2: the last word that can be fetched. -/
theorem test_fetch_last :
    (stepped ({ State.reset with pc := 0xFFE }.withFetchWord 16 0x1FFE)).pc = 0xFFE := by decide
/-- RS1, RS2. -/
theorem test_reset_settings :
    let s := ticked { booted [0x61, 0x33, 0xF2, 0x0A] with dt := 9 }
    let a := resetWith .retain false s
    let b := resetWith .zero true s
    (a.pc, a.halted, readV a 1, a.dt, a.keyWait) = (0x200, true, 0x33, 8, some 2) ∧
    (b.pc, b.halted, readV b 1, b.dt, b.keyWait) = (0x200, true, 0, 0, none) := by decide
/-- LD1: refused, and a refused call changes nothing. -/
theorem test_load_too_large :
    hostCall (.loadProgram (List.replicate 3585 1)) State.reset = .refused .imageTooLarge := by
  have h : ∀ bytes : List Byte, 3584 < bytes.length →
      hostCall (.loadProgram bytes) State.reset = .refused .imageTooLarge := fun bytes h => by
    simp [hostCall, loadProgram, maxImage, h, State.reset, State.constructed]
  exact h _ (by rw [List.length_replicate]; decide)
/-- ST1. -/
theorem test_store_above_memory :
    hostCall (.store 0x1000 5) State.reset = .refused .addressOutOfRange := rfl
/-- R304: a quirk's two names, and no other. -/
theorem test_setQuirk :
    (afterCall State.reset (.setQuirk "inc_i" true)).qIncI = true ∧
    (afterCall State.reset (.setQuirk "shift_vy" true)).qShiftVy = true ∧
    hostCall (.setQuirk "q" true) State.reset = .refused .unknownQuirk :=
  ⟨by decide, by decide, rfl⟩
/-- FT1: the fault outlives `reset()` and `resume()`. -/
theorem test_fault_outlives_reset :
    let t := hostResume (resetWith .retain false (ticked (booted [0x80, 0x08])))
    t.fault = some (.illegalInstruction 0x8008 0x200) ∧ ticked t = t ∧ t.pc = 0x200 := by decide

/-! ## Witnesses: states and operands that meet the hypotheses of each obligation -/

/-- Both families of FamiliesZeroAndEDecode. -/
theorem witness_families_zero_and_E :
    fieldOp 0x03EE = 0x0 ∧ fieldOp 0x01E0 = 0x0 ∧ fieldOp 0x0FFF = 0x0 ∧ fieldOp 0xEFFE = 0xE ∧
    fieldOp 0xE001 = 0xE := by decide

/-- Every clause of FamilyEightDecodes. -/
theorem witness_family_eight :
    fieldOp 0x8AB0 = 0x8 ∧ fieldN 0x8AB0 = 0x0 ∧ fieldN 0x8AB1 = 0x1 ∧ fieldN 0x8AB2 = 0x2 ∧
    fieldN 0x8AB3 = 0x3 ∧ fieldN 0x8AB4 = 0x4 ∧ fieldN 0x8AB5 = 0x5 ∧ fieldN 0x8AB6 = 0x6 ∧
    fieldN 0x8AB7 = 0x7 ∧ fieldN 0x8ABE = 0xE ∧ fieldOp 0x8AB8 = 0x8 ∧ 8 ≤ (fieldN 0x8AB8).toNat ∧
    fieldN 0x8AB8 ≠ 0xE ∧ 8 ≤ (fieldN 0x8ABF).toNat ∧ fieldN 0x8ABF ≠ 0xE := by decide

/-- FamilyFDecodes, and the encodings of IndexArithmetic and DisplayPortAndClear. -/
theorem witness_family_F :
    fieldOp 0xF02C = 0xF ∧ fieldOp 0xFF65 = 0xF ∧ fieldOp 0xF41E = 0xF ∧ fieldKk 0xF41E = 0x1E ∧
    fieldOp 0xF229 = 0xF ∧ fieldKk 0xF229 = 0x29 ∧ fieldOp 0x01E0 = 0x0 ∧ fieldKk 0x01E0 = 0xE0 := by decide

/-- Every clause of SingleLeafFamiliesDecode. -/
theorem witness_single_leaf_families :
    fieldOp 0x1FFF = 0x1 ∧ fieldOp 0x2000 = 0x2 ∧ fieldOp 0x3F00 = 0x3 ∧ fieldOp 0x40FF = 0x4 ∧
    fieldOp 0x5127 = 0x5 ∧ fieldOp 0x6FFF = 0x6 ∧ fieldOp 0x7000 = 0x7 ∧ fieldOp 0x912F = 0x9 ∧
    fieldOp 0xA000 = 0xA ∧ fieldOp 0xBFFF = 0xB ∧ fieldOp 0xC300 = 0xC ∧ fieldOp 0xD12F = 0xD := by decide

/-- DecodeOfEncodeIsTheInstruction and DecodedInstructionFitsItsRow. -/
theorem witness_wellFormed :
    (Instr.sys 0xFEF).wellFormed = true ∧ decode 0x0FEF = .ok (.sys 0xFEF) ∧
    (Instr.seReg 15 0).wellFormed = true ∧ decode 0x5F0F = .ok (.seReg 15 0) := by decide

/-- Both sides of RefusedWordsAreTheIllegalOnes, in both families. -/
theorem witness_refused_words :
    decode 0x8FFD = .error (.illegal 0x8FFD) ∧ decode 0xFF66 = .error (.illegal 0xFF66) := by decide

/-- MemoryAccessRules, both clauses at their boundary. -/
theorem witness_memory_access :
    MemoryOk (start 0x6005) ∧ NoFault (start 0x6005) ∧ 0xFFF ≤ 0xFFF ∧ 0xFFF < 0x1000 := by decide

/-- The depths 0, 1, 15 and 16 of StackRules, CallPushesTheNextAddress and ReturnPopsIntoPc. -/
theorem witness_stack_depths :
    NoFault (start 0) ∧ (start 0).sp.val = 0 ∧ (start 0).sp.val < 16 ∧
    NoFault { start 0 with sp := 1 } ∧ { start 0 with sp := 1 }.sp.val = 0 + 1 ∧ 0 < 16 ∧
    NoFault { start 0 with sp := 15 } ∧ { start 0 with sp := 15 }.sp.val < 16 ∧
    NoFault { start 0 with sp := 16 } ∧ { start 0 with sp := 16 }.sp.val = 16 ∧
    { start 0 with sp := 16 }.sp.val = 15 + 1 ∧ 15 < 16 := by decide

/-- Every clause of FetchRule. -/
theorem witness_fetch :
    NoFault (start 0) ∧ { start 0 with pc := 0xFFF }.pc.toNat % 2 = 1 ∧
    { start 0 with pc := 0x1000 }.pc.toNat % 2 = 0 ∧ 0xFFF < { start 0 with pc := 0x1000 }.pc.toNat ∧
    { start 0 with pc := 0xFFE }.pc.toNat % 2 = 0 ∧ { start 0 with pc := 0xFFE }.pc.toNat ≤ 0xFFE ∧
    { start 0 with pc := 0xFFF }.pc.toNat = 0xFFF := by decide

/-- FetchSeesTheLatestWrite, at the second byte of the fetch. -/
theorem witness_fetch_after_write :
    MemoryOk (start 0x1200) ∧
    memWrite (start 0x1200) 0x201 0x28 = .ok (withBytes (start 0x1200) 0x201 [0x28]) ∧
    (start 0x1200).pc.toNat % 2 = 0 ∧ (start 0x1200).pc.toNat ≤ 0xFFE := by decide

/-- A core whose cycle faults: the start of each clause of RaiseEndsInstructionAndTick. -/
def faulty : State := start 0x8008

/-- The state after its fault. -/
def faulted : State := { faulty with fault := some (.illegalInstruction 0x8008 0x200) }

theorem witness_raise :
    NoFault faulty ∧ faulted.fault = some (.illegalInstruction 0x8008 0x200) ∧ executes faulty = true ∧
    cycle faulty = .next faulted ∧ batch 10 faulty = .next faulted ∧ faulted.fault ≠ none :=
  ⟨by decide, by decide, by decide, rfl, rfl, by decide⟩

/-- Every clause of FaultIsSticky. -/
theorem witness_fault_is_sticky :
    faulted.fault = some (.illegalInstruction 0x8008 0x200) ∧ faulted.tickPos = 0 ∧
    step faulted = .next faulted ∧ exec (.jp 0) faulted = .next (setPc faulted 0) ∧
    hostCall .resume faulted = .next { faulted with halted := false } :=
  ⟨by decide, by decide, rfl, rfl, rfl⟩

/-- ReturnGoesBehindItsCall: the callee may change everything else. -/
theorem witness_call_then_return :
    { start 0x2300 with sp := 15 }.sp.val < 16 ∧
    ∃ t, exec (.call 0x300) { start 0x2300 with sp := 15 } = .next t ∧
      (writeV t 0 9).stack = t.stack ∧ (writeV t 0 9).sp = t.sp :=
  ⟨by decide, _, rfl, rfl, rfl⟩

/-- ShiftsFromTheQuirkSource under both settings. -/
theorem witness_shift_source :
    (5 : Byte) = (if (writeV (start 0) 1 5).qShiftVy = true then readV (writeV (start 0) 1 5) 2
      else readV (writeV (start 0) 1 5) 1) ∧
    (0 : Byte) = (if { writeV (start 0) 1 5 with qShiftVy := true }.qShiftVy = true
      then readV { writeV (start 0) 1 5 with qShiftVy := true } 2
      else readV { writeV (start 0) 1 5 with qShiftVy := true } 1) := by decide

/-- BcdStoresDecimalDigits, BlockStoreWritesRegisters, BlockLoadReadsRegisters and
BlockStoreThenLoadRoundTrips: the last byte at 0xFFF, and one past it. -/
theorem witness_block_at_the_top :
    MemoryOk { start 0 with i := 0xFFD } ∧ NoFault { start 0 with i := 0xFFE } ∧
    dataAddress { start 0 with i := 0xFFD } 2 ≤ 0xFFF ∧ MemoryOk { start 0 with i := 0xFFE } ∧
    0xFFF < dataAddress { start 0 with i := 0xFFE } 2 ∧
    MemoryOk { start 0 with i := 0xFF0 } ∧ dataAddress { start 0 with i := 0xFF0 } (15 : Reg).val ≤ 0xFFF ∧
    MemoryOk { start 0 with i := 0xFF1 } ∧ NoFault { start 0 with i := 0xFF1 } ∧
    0xFFF < dataAddress { start 0 with i := 0xFF1 } (15 : Reg).val := by decide

/-- BlockStoreThenLoadRoundTrips: a state between store and load with other registers. -/
theorem witness_block_round_trip :
    ∃ t, exec (.storeRegs 15) { start 0xFF55 with i := 0xFF0, qIncI := true } = .next t ∧
      { writeV t 3 7 with i := 0xFF0 }.mem = t.mem ∧
      { writeV t 3 7 with i := 0xFF0 }.i = { start 0xFF55 with i := 0xFF0, qIncI := true }.i :=
  ⟨_, rfl, rfl, rfl⟩

/-- KeySkips: the key codes 15 and 16. -/
theorem witness_key_skips :
    (15 : Fin 16).val = (readV (writeV (start 0) 1 15) 1).toNat ∧ NoFault (writeV (start 0) 1 16) ∧
    15 < (readV (writeV (start 0) 1 16) 1).toNat := by decide

/-- WaitForKey: the delivery finds the core not halted. -/
theorem witness_wait_for_key :
    ∃ t, exec (.waitKey 3) (start 0xF30A) = .next t ∧
      { t with dt := 0 }.keyWait = t.keyWait ∧ NoFault { t with dt := 0 } ∧
      { t with dt := 0 }.halted = false := ⟨_, rfl, rfl, rfl, rfl⟩

/-- Every clause of KeyDelivery. -/
theorem witness_key_delivery :
    (start 0).tickPos = 0 ∧ 15 < 16 ∧ 15 ≤ 15 ∧ (start 0).keyWait = none ∧
    NoFault { start 0 with keyWait := some 15 } ∧ { start 0 with keyWait := some 15 }.halted = false ∧
    { start 0 with keyWait := some 15 }.keyWait = some 15 ∧ State.reset.halted = true ∧
    faulted.fault ≠ none := by decide

/-- Every clause of DrawCompletesInsideMemory. -/
theorem witness_draw_memory :
    SpriteInMemory { start 0 with i := 0xFF1 } (15#4).toNat ∧
    SpriteInMemory { start 0 with i := 0xFFFF } (0#4).toNat ∧ NoFault { start 0 with i := 0xFF2 } ∧
    ¬SpriteInMemory { start 0 with i := 0xFF2 } (15#4).toNat := by
  unfold SpriteInMemory; decide

/-- A one-row sprite of one pixel at the corner (63, 31) of the field. -/
def corner : State := { withBytes (writeV (writeV (start 0xD011) 0 63) 1 31) 0x300 [0x80] with i := 0x300 }

theorem corner_drawsOn (r c px py : Nat) (h : DrawsOn corner 0 1 1 r c px py) :
    r = 0 ∧ c = 0 ∧ px = 63 ∧ py = 31 := by
  obtain ⟨hr, ⟨hc, hb⟩, hx, hy⟩ := h
  obtain rfl : r = 0 := by omega
  have : c = 0 := by
    by_contra h0
    revert hb
    have : ∀ c < 8, c ≠ 0 → ¬(byteAt corner (dataAddress corner 0)).getLsbD (7 - c) = true := by decide
    exact this c hc h0
  subst this
  exact ⟨rfl, rfl, hx, hy⟩

/-- DrawTogglesExactlyTheSprite and DrawTwiceRestoresTheDisplay, with a pixel that is drawn, off in
`corner` and on in the second state, and one that is not drawn. -/
theorem witness_draw_in_field :
    ((0 : Reg) ≠ 15 ∧ (1 : Reg) ≠ 15) ∧ SpriteInMemory corner (1#4).toNat ∧
    DrawsInField corner 0 1 (1#4).toNat ∧ DrawsOn corner 0 1 (1#4).toNat 0 0 63 31 ∧
    (¬∃ r c, DrawsOn corner 0 1 (1#4).toNat r c 0 0) ∧ Bitmap.pixel corner.bitmap 63 31 = false ∧
    Bitmap.pixel { corner with bitmap := Bitmap.toggle Bitmap.blank 63 31 (by decide) }.bitmap 63 31 = true := by
  refine ⟨by decide, by unfold SpriteInMemory; decide, ?_, by unfold DrawsOn SpriteBit; decide, ?_,
    by decide, by decide⟩
  · intro r c px py h
    obtain ⟨_, _, rfl, rfl⟩ := corner_drawsOn r c px py h
    decide
  · rintro ⟨r, c, h⟩
    have := corner_drawsOn r c 0 0 h
    omega

/-- Both clauses of DisplayPortAndClear at the edge of the field. -/
theorem witness_display_port : (63 < 64 ∧ 31 < 32) ∧ ¬(64 < 64 ∧ 0 < 32) ∧ ¬(0 < 64 ∧ 32 < 32) := by decide

/-- Every clause of CycleRule. -/
theorem witness_cycle :
    executes State.reset = false ∧ executes { start 0 with pc := 0x201 } = true ∧
    fetch { start 0 with pc := 0x201 }
      = .error { start 0 with pc := 0x201, fault := some (.misalignedFetch 0x201) } ∧
    executes faulty = true ∧ fetch faulty = .ok 0x8008 ∧ decode 0x8008 = .error (.illegal 0x8008) ∧
    executes (start 0x1228) = true ∧ fetch (start 0x1228) = .ok 0x1228 ∧
    decode 0x1228 = .ok (.jp 0x228) ∧
    exec (.jp 0x228) { start 0x1228 with pcSet := false }
      = .next { start 0x1228 with pc := 0x228, pcSet := true } :=
  ⟨by decide, by decide, by decide, by decide, by decide, by decide, by decide, by decide, by decide, rfl⟩

/-- StepRunsTheDecodedInstruction and PlacedWordIsRunNext, at the last word of memory. -/
theorem witness_step_runs :
    let s := { State.reset with pc := 0xFFE }
    let p := s.withFetchWord 16 0x1228
    executes p = true ∧ p.pc.toNat % 2 = 0 ∧ p.pc.toNat ≤ 0xFFE ∧
    decodeBytes [byteAt p p.pc.toNat, byteAt p (p.pc.toNat + 1)] = .ok (.jp 0x228, []) ∧
    MemoryOk s ∧ s.pc.toNat % 2 = 0 ∧ s.pc.toNat ≤ 0xFFE ∧ decodeTableWord 16 0x1228 = some (.jp 0x228) ∧
    exec (.jp 0x228) { p with pcSet := false } = .next { p with pc := 0x228, pcSet := true } :=
  ⟨by decide, by decide, by decide, by decide, by decide, by decide, by decide, by decide, rfl⟩

/-- The tick of TimersStopAtZero. -/
theorem witness_timer_tick :
    let s := { start 0x1200 with dt := 1, st := 2 }
    executes s = true ∧ ∃ t, batch 10 s = .next t ∧ NoFault t ∧ t.dt = 1 := ⟨by decide, _, rfl, rfl, rfl⟩

/-- TenStepsAreOneTick, ResetOperation, ModeHaltAndResume: no tick is running; and each case of
WaitingCoreStandsStill. -/
theorem witness_between_ticks :
    (start 0).tickPos = 0 ∧ faulted.tickPos = 0 ∧ faulted.fault ≠ none ∧ State.reset.tickPos = 0 ∧
    State.reset.halted = true ∧ { start 0 with keyWait := some 0 }.tickPos = 0 ∧
    { start 0 with keyWait := some 0 }.keyWait ≠ none := by decide

/-- ResetOperation under both settings of each parameter. -/
theorem witness_reset_settings :
    resetWith .zero true (start 0) = { State.reset with mem := (start 0).mem } ∧
    resetWith .retain false { start 0 with keyWait := some 3 }
      = { start 0 with keyWait := some 3, halted := true } := by decide

/-- StepKeepsMemoryCanonical and StepKeepsFaultRecordAndTick: a step that goes on, and one that faults. -/
theorem witness_invariants :
    MemoryOk faulty ∧ FaultAgrees faulty ∧ TickOk faulty ∧ step faulty = .next faulted ∧
    MemoryOk (start 0x1228) ∧ FaultAgrees (start 0x1228) ∧ TickOk (start 0x1228) ∧
    step (start 0x1228) = .next { start 0x1228 with pc := 0x228, pcSet := true, tickPos := 1 } :=
  ⟨by decide, trivial, ⟨by decide, by decide⟩, rfl, by decide, trivial, ⟨by decide, by decide⟩, rfl⟩

/-- Every clause of LoadProgramWritesTheImage. -/
theorem witness_load_program :
    State.reset.tickPos = 0 ∧ MemoryOk State.reset ∧ (List.replicate 3584 (1 : Byte)).length ≤ 3584 ∧
    3584 < (List.replicate 3585 (1 : Byte)).length := by
  rw [List.length_replicate, List.length_replicate]
  decide

/-- Every clause of StoreAndSetQuirk. -/
theorem witness_store_and_quirk :
    State.reset.tickPos = 0 ∧ MemoryOk State.reset ∧ 0xFFF ≤ 0xFFF ∧ 0xFFF < 0x1000 ∧
    "load" ≠ "inc_i" ∧ "load" ≠ "shift_vy" := by decide

/-- BootLeavesARunningCore: the conventional font and the source's example program. -/
theorem witness_boot :
    conventionalFont.length = 80 ∧ ([0x60, 0x05, 0x61, 0x05, 0x80, 0x14] : List Byte).length ≤ 3584 := by
  decide

/-- OnlyTheListedInstructionsWrite, NoInstructionReadsTheSoundTimer and
OnlyFourInstructionsReadTheQuirks. -/
theorem witness_whole_machine :
    exec (.addI 1) (start 0) = .next (start 0) ∧ NoFault (start 0) ∧ writesStack (.addI 1) = false ∧
    writesPc (.addI 1) = false ∧ writesV (.addI 1) 1 = false ∧ writesMemory (.addI 1) = false ∧
    writesDisplay (.addI 1) = false ∧ writesI (.jp 0) = false ∧ readsQuirks (.addI 1) = false ∧
    exec (.writeSt 1) (start 0) = .next (start 0) :=
  ⟨rfl, by decide, by decide, by decide, by decide, by decide, by decide, by decide, by decide, rfl⟩

/-- SpinningProgramStaysFinished: a JP and a SYS to themselves. -/
theorem witness_spinning :
    FinishedSpinning (start 0x1200) ∧ FinishedSpinning (start 0x0200) :=
  ⟨⟨by decide, 0x200, by decide, 0x1200, by decide, .inl (by decide)⟩,
    ⟨by decide, 0x200, by decide, 0x0200, by decide, .inr (by decide)⟩⟩

end Sys2Proof.Tests
end

section
/-! PROOFS of the family 10_state: the stack, the mode, reset and the invariants at reset; what each
instruction may write; what no instruction reads; the fault record that nothing clears. -/

namespace Sys2Proof.Machine

/-! ## The stack (R28) -/

/-- A pop takes back what the push before it put on, and the old depth (R28). -/
theorem pop_after_push {s t : State} {w : Word} (h : push s w = .ok t) :
    pop t = .ok (w, { t with sp := s.sp }) := by
  obtain ⟨u, hu, -, hsp, hstack, -⟩ | ⟨-, herr⟩ := push_cases s w
  · obtain rfl : u = t := Except.ok.inj (hu.symm.trans h)
    obtain ⟨v, k, hk, hk1, hpop, hv, hveq⟩ | ⟨h0, -⟩ := pop_cases u
    · obtain rfl : k = s.sp.val := by omega
      have hvsp : v.sp = s.sp := Fin.ext hv
      rw [hpop, hstack _ hk, if_pos rfl, hveq, hvsp]
    · omega
  · cases herr.symm.trans h

/-- Settles O10: the two cases of `push` and of `pop`, and a pop after a push. -/
theorem stackRules : Obligations.StackRules := by
  intro s w hs
  have hraise := fun f => raise_of_noFault s f hs
  refine ⟨fun hlt => ?_, fun hfull => ?_, fun k hk hsp => ?_, fun hempty => ?_⟩
  · obtain ⟨t, ht, -, hsp, hstack, heq⟩ | ⟨hfull, -⟩ := push_cases s w
    · exact ⟨t, ht, heq, hsp, hstack, pop_after_push ht⟩
    · omega
  · obtain ⟨t, -, hlt, -⟩ | ⟨-, herr⟩ := push_cases s w
    · omega
    · rw [herr, hraise]
  · obtain ⟨t, j, hj, hj1, hpop, ht, heq⟩ | ⟨h0, -⟩ := pop_cases s
    · obtain rfl : j = k := by omega
      exact ⟨t, hpop, ht, heq⟩
    · omega
  · obtain ⟨t, j, -, hj1, -⟩ | ⟨-, herr⟩ := pop_cases s
    · omega
    · rw [herr, hraise]

/-! ## Reset, the mode and the host's calls (R33, R37, R270, R271, R301) -/

section HostCalls

variable {s : State} (h : s.tickPos = 0)

include h

/-- Between ticks `reset()` is accepted (R301, R305). -/
theorem hostCall_reset : hostCall .reset s = .next (hostReset s) := by simp [hostCall, h]

/-- Between ticks `halt()` is accepted (R270, R305). -/
theorem hostCall_halt : hostCall .halt s = .next (hostHalt s) := by simp [hostCall, h]

/-- Between ticks `resume()` is accepted (R271, R305). -/
theorem hostCall_resume : hostCall .resume s = .next (hostResume s) := by simp [hostCall, h]

end HostCalls

/-- The first `reset()` has nothing to clear: its open parameters make no difference (R37, R301). -/
theorem resetWith_constructed (regs : ResetRegs) (clears : Bool) :
    resetWith regs clears State.constructed = State.reset := by
  cases regs <;> cases clears <;> rfl

/-- `reset()` keeps the fault record (R34, R301). -/
@[simp] theorem resetWith_fault (regs : ResetRegs) (clears : Bool) (s : State) :
    (resetWith regs clears s).fault = s.fault := by
  cases regs <;> rfl

/-- Settles O50: memory is empty, no fault is recorded and no tick runs at reset. -/
theorem resetMeetsTheInvariants : Obligations.ResetMeetsTheInvariants :=
  ⟨reset_mem_wf, trivial, by decide, fun hf => absurd rfl hf⟩

/-- Settles O51: neither parameter of `reset()` finds anything to clear, and `State.reset` holds zeros. -/
theorem firstResetLeavesTheResetState : Obligations.FirstResetLeavesTheResetState := by
  refine ⟨resetWith_constructed, resetWith_constructed _ _, rfl, rfl, rfl, rfl, rfl, ?_, rfl, rfl, ?_,
    rfl, rfl, fun _ => rfl⟩
  · exact fun r => Vector.getElem_replicate r.isLt
  · exact fun k hk => Vector.getElem_replicate hk

/-- Settles O52: by the two settings of RESET_CLEARS_REGS. -/
theorem resetOperation : Obligations.ResetOperation := by
  refine ⟨fun s => hostCall_reset, ?_⟩
  rintro regs clears s t rfl
  cases regs with
  | retain =>
    exact ⟨rfl, rfl, rfl, rfl, nofun, fun _ => ⟨rfl, rfl, rfl, rfl, rfl, rfl⟩,
      rfl, rfl, rfl, rfl, rfl, rfl, rfl, rfl⟩
  | zero =>
    have hregs : ∀ r, readV (resetWith .zero clears s) r = 0 :=
      fun r => Vector.getElem_replicate r.isLt
    have hstack : ∀ k (hk : k < 16), (resetWith .zero clears s).stack[k] = 0 :=
      fun k hk => Vector.getElem_replicate hk
    exact ⟨rfl, rfl, rfl, rfl, fun _ => ⟨hregs, rfl, rfl, hstack, rfl, rfl⟩, nofun,
      rfl, rfl, rfl, rfl, rfl, rfl, rfl, rfl⟩

/-- The mode is halted exactly when `halted` is set (R33). -/
theorem mode_eq_halted {s : State} : mode s = .halted ↔ s.halted = true := by
  unfold mode
  cases s.halted <;> cases s.keyWait <;> simp

/-- The mode is blocked-on-key exactly when a core that is not halted waits (R33). -/
theorem mode_eq_blockedOnKey {s : State} :
    mode s = .blockedOnKey ↔ s.halted = false ∧ s.keyWait ≠ none := by
  unfold mode
  cases s.halted <;> cases s.keyWait <;> simp

/-- The mode is running exactly when the core is neither halted nor waits (R33). -/
theorem mode_eq_running {s : State} : mode s = .running ↔ s.halted = false ∧ s.keyWait = none := by
  unfold mode
  cases s.halted <;> cases s.keyWait <;> simp

/-- The core executes exactly in the running mode without a fault (R262, R273). -/
theorem executes_iff {s : State} : executes s = true ↔ NoFault s ∧ mode s = .running := by
  simp [executes, mode_eq_running, and_assoc]

/-- Settles O53: the mode's three values, and the two calls between ticks. -/
theorem modeHaltAndResume : Obligations.ModeHaltAndResume := fun _ =>
  ⟨mode_eq_halted, mode_eq_blockedOnKey, mode_eq_running, executes_iff,
    fun h => ⟨hostCall_halt h, hostCall_resume h⟩⟩

/-! ## Executors that may raise

Each runs one operation that may raise and, where that completes, one that may not. -/

/-- An executor that may raise ends in the state it completed in or in the state it raised in. -/
theorem settle_eq_next {e : Except State State} {t : State} :
    settle e = .next t ↔ e = .ok t ∨ e = .error t := by
  cases e <;> simp [settle]

section MayRaise

variable (x : Reg) (s : State)

/-- R123. -/
theorem execCall_eq (nnn : Addr12) :
    execCall nnn s = settle ((push s (s.pc + 2)).map (setPc · (zext16 nnn))) := by
  unfold execCall
  cases push s (s.pc + 2) <;> rfl

/-- R124. -/
theorem execRet_eq : execRet s = settle ((pop s).map (fun p => setPc p.2 p.1)) := by
  unfold execRet
  cases pop s <;> rfl

/-- R220. -/
theorem execSkp_eq :
    execSkp x s = settle ((keyCode s x).map (fun k => skipIf (keyPressed s k) s)) := by
  unfold execSkp
  cases keyCode s x <;> rfl

/-- R221. -/
theorem execSknp_eq :
    execSknp x s = settle ((keyCode s x).map (fun k => skipIf (!keyPressed s k) s)) := by
  unfold execSknp
  cases keyCode s x <;> rfl

/-- R191. -/
theorem execStoreRegs_eq :
    execStoreRegs x s = settle ((storeList (dataAddress s 0) (regsUpTo x) s).map (advanceI · x)) := by
  unfold execStoreRegs
  cases storeList (dataAddress s 0) (regsUpTo x) s <;> rfl

/-- R192. -/
theorem execLoadRegs_eq :
    execLoadRegs x s = settle ((loadList (dataAddress s 0) (regsUpTo x) s).map (advanceI · x)) := by
  unfold execLoadRegs
  cases loadList (dataAddress s 0) (regsUpTo x) s <;> rfl

end MayRaise

/-! ## What an instruction may write (R22, R25, R27, R31-R33, R38, R60, R278, R279)

`ListedWrites ins s u` says of a state `u` on the way of the instruction `ins` from `s` that so far only
what the spec lists for `ins` was written and a recorded fault stands. Each shared operation keeps it, so
each executor does. -/

/-- From `s` to `t` nothing but what is listed for `ins` was written, and a recorded fault was kept. -/
structure ListedWrites (ins : Instr) (s t : State) : Prop where
  qIncI : t.qIncI = s.qIncI
  qShiftVy : t.qShiftVy = s.qShiftVy
  halted : t.halted = s.halted
  keysDown : t.keysDown = s.keysDown
  tickPos : t.tickPos = s.tickPos
  stack : writesStack ins = false → t.stack = s.stack ∧ t.sp = s.sp
  pc : writesPc ins = false → t.pc = s.pc ∧ t.pcSet = s.pcSet
  dt : (∀ x, ins ≠ .writeDt x) → t.dt = s.dt
  st : (∀ x, ins ≠ .writeSt x) → t.st = s.st
  keyWait : (∀ x, ins ≠ .waitKey x) → t.keyWait = s.keyWait
  draws : (∀ x kk, ins ≠ .rnd x kk) → t.draws = s.draws
  v : ∀ r, writesV ins r = false → readV t r = readV s r
  i : writesI ins = false → t.i = s.i
  mem : writesMemory ins = false → t.mem = s.mem
  bitmap : writesDisplay ins = false → t.bitmap = s.bitmap
  fault : ∀ f, s.fault = some f → t.fault = some f

namespace ListedWrites

variable {ins : Instr} {s u : State}

theorem refl : ListedWrites ins s s where
  qIncI := rfl
  qShiftVy := rfl
  halted := rfl
  keysDown := rfl
  tickPos := rfl
  stack _ := ⟨rfl, rfl⟩
  pc _ := ⟨rfl, rfl⟩
  dt _ := rfl
  st _ := rfl
  keyWait _ := rfl
  draws _ := rfl
  v _ _ := rfl
  i _ := rfl
  mem _ := rfl
  bitmap _ := rfl
  fault _ h := h

section AfterOneOperation

variable (h : ListedWrites ins s u)

include h

theorem after_writeV {x : Reg} {b : Byte} (hx : writesV ins x = true) :
    ListedWrites ins s (writeV u x b) :=
  { h with
    v := fun r hr => by
      have hne : x ≠ r := by
        rintro rfl
        exact Bool.noConfusion (hx.symm.trans hr)
      rw [readV_writeV, if_neg hne, h.v r hr] }

theorem after_writeWithFlag {x : Reg} {b flag : Byte} (hx : writesV ins x = true)
    (hf : writesV ins flagReg = true) : ListedWrites ins s (writeWithFlag u x b flag) :=
  (h.after_writeV hx).after_writeV hf

theorem after_writeI {w : Word} (hi : writesI ins = true) : ListedWrites ins s (writeI u w) :=
  { h with i := fun hn => Bool.noConfusion (hi.symm.trans hn) }

theorem after_advanceI {x : Reg} (hi : writesI ins = true) : ListedWrites ins s (advanceI u x) := by
  unfold advanceI
  split
  · exact h.after_writeI hi
  · exact h

theorem after_setPc {w : Word} (hp : writesPc ins = true) : ListedWrites ins s (setPc u w) :=
  { h with pc := fun hn => Bool.noConfusion (hp.symm.trans hn) }

theorem after_skipIf {c : Bool} (hp : writesPc ins = true) : ListedWrites ins s (skipIf c u) := by
  cases c
  · exact h
  · exact h.after_setPc hp

/-- Raising records a fault where none is, and changes nothing else (R261). -/
theorem after_raise {f : Fault} : ListedWrites ins s (raise u f) := by
  unfold raise
  split
  · rename_i hn
    exact { h with fault := fun g hg => nomatch hn.symm.trans (h.fault g hg) }
  · exact h

/-- A push completes or raises; either way only the stack and SP were written (R28). -/
theorem after_push {w : Word} {t : State} (hs : writesStack ins = true)
    (e : push u w = .ok t ∨ push u w = .error t) : ListedWrites ins s t := by
  obtain ⟨t', he, -, -, -, heq⟩ | ⟨-, he⟩ := push_cases u w
  · obtain rfl : t' = t := by simpa [he] using e
    rw [heq]
    exact { h with stack := fun hn => Bool.noConfusion (hs.symm.trans hn) }
  · obtain rfl : raise u _ = t := by simpa [he] using e
    exact h.after_raise

/-- A pop completes or raises; either way only SP was written (R28). -/
theorem after_pop {w : Word} {t : State} (hs : writesStack ins = true)
    (e : pop u = .ok (w, t) ∨ pop u = .error t) : ListedWrites ins s t := by
  obtain ⟨t', k, hk, -, he, -, heq⟩ | ⟨-, he⟩ := pop_cases u
  · obtain ⟨-, rfl⟩ : u.stack[k] = w ∧ t' = t := by simpa [he] using e
    rw [heq]
    exact { h with stack := fun hn => Bool.noConfusion (hs.symm.trans hn) }
  · obtain rfl : raise u _ = t := by simpa [he] using e
    exact h.after_raise

/-- A byte write completes or raises; either way only memory was written (R62). -/
theorem after_memWrite {a : Nat} {b : Byte} {t : State} (hm : writesMemory ins = true)
    (e : memWrite u a b = .ok t ∨ memWrite u a b = .error t) : ListedWrites ins s t := by
  rw [memWrite_eq] at e
  split at e
  · obtain rfl : { u with mem := u.mem.write a b } = t := by simpa using e
    exact { h with mem := fun hn => Bool.noConfusion (hm.symm.trans hn) }
  · obtain rfl : raise u _ = t := by simpa using e
    exact h.after_raise

/-- Drawing writes the display and VF alone (R236). -/
theorem after_draw {t : State} (hd : writesDisplay ins = true) (hf : writesV ins flagReg = true)
    (hframe : DrawFrame u t) : ListedWrites ins s t := by
  obtain ⟨heq, hv, -⟩ := hframe
  have hregs : ∀ r, writesV ins r = false → readV t r = readV s r := fun r hr => by
    have hne : r ≠ flagReg := by
      rintro rfl
      exact Bool.noConfusion (hf.symm.trans hr)
    rw [hv r hne, h.v r hr]
  rw [heq]
  exact { h with v := hregs, bitmap := fun hn => Bool.noConfusion (hd.symm.trans hn) }

end AfterOneOperation

/-- The byte writes of BCD, one after another (R190). -/
theorem after_writeBytes (hm : writesMemory ins = true) {t : State} :
    ∀ (bs : List Byte) (a : Nat) (u : State), ListedWrites ins s u →
      writeBytes u a bs = .ok t ∨ writeBytes u a bs = .error t → ListedWrites ins s t
  | [], a, u, h, e => by
    obtain rfl : u = t := by simpa [writeBytes] using e
    exact h
  | b :: bs, a, u, h, e => by
    unfold writeBytes at e
    split at e
    · rename_i t' ht
      obtain rfl : t' = t := by simpa using e
      exact h.after_memWrite hm (.inr ht)
    · rename_i t' ht
      exact after_writeBytes hm bs (a + 1) t' (h.after_memWrite hm (.inl ht)) e

/-- The byte writes of a block store, register by register (R191). -/
theorem after_storeList (hm : writesMemory ins = true) {base : Nat} {t : State} :
    ∀ (ks : List Reg) (u : State), ListedWrites ins s u →
      storeList base ks u = .ok t ∨ storeList base ks u = .error t → ListedWrites ins s t
  | [], u, h, e => by
    obtain rfl : u = t := by simpa [storeList] using e
    exact h
  | k :: ks, u, h, e => by
    unfold storeList at e
    split at e
    · rename_i t' ht
      obtain rfl : t' = t := by simpa using e
      exact h.after_memWrite hm (.inr ht)
    · rename_i t' ht
      exact after_storeList hm ks t' (h.after_memWrite hm (.inl ht)) e

/-- The register writes of a block load, register by register (R192). -/
theorem after_loadList {base : Nat} {t : State} :
    ∀ (ks : List Reg) (u : State), (∀ k ∈ ks, writesV ins k = true) → ListedWrites ins s u →
      loadList base ks u = .ok t ∨ loadList base ks u = .error t → ListedWrites ins s t
  | [], u, _, h, e => by
    obtain rfl : u = t := by simpa [loadList] using e
    exact h
  | k :: ks, u, hks, h, e => by
    obtain ⟨hk, hks⟩ := List.forall_mem_cons.1 hks
    rw [loadList, memRead_eq] at e
    by_cases hr : base + k.val ≤ 0xFFF
    · rw [if_pos hr] at e
      exact after_loadList ks _ hks (h.after_writeV hk) e
    · rw [if_neg hr] at e
      obtain rfl : raise u _ = t := by simpa using e
      exact h.after_raise

/-- The rows of a sprite, completed or ended by a fault (R236). -/
theorem after_drawRows (h : ListedWrites ins s u) (hd : writesDisplay ins = true)
    (hf : writesV ins flagReg = true) {d : DrawArgs} {n r : Nat} {t : State}
    (e : drawRows d n r u = .ok t ∨ drawRows d n r u = .error t) : ListedWrites ins s t := by
  obtain ⟨t', he, hframe, -⟩ | ⟨t', k, he, hframe, -⟩ := drawRows_cases d n r u
  · obtain rfl : t' = t := by simpa [he] using e
    exact h.after_draw hd hf hframe
  · obtain rfl : raise t' _ = t := by simpa [he] using e
    exact (h.after_draw hd hf hframe).after_raise

end ListedWrites

/-- Two ends of an executor that goes on with `f` after an operation that may raise. -/
theorem ListedWrites.of_settle_map {α : Type} {ins : Instr} {s t : State} {e : Except State α}
    {f : α → State} (herr : ∀ u, e = .error u → ListedWrites ins s u)
    (hok : ∀ a, e = .ok a → ListedWrites ins s (f a)) (h : settle (e.map f) = .next t) :
    ListedWrites ins s t := by
  cases e with
  | error u =>
    obtain rfl := Host.Outcome.next.inj h
    exact herr u rfl
  | ok a =>
    obtain rfl := Host.Outcome.next.inj h
    exact hok a rfl

section Executors

variable {s t : State}

theorem execCall_listedWrites {nnn : Addr12} (h : execCall nnn s = .next t) :
    ListedWrites (.call nnn) s t := by
  rw [execCall_eq] at h
  refine .of_settle_map (fun u hu => ?_) (fun u hu => ?_) h
  · exact ListedWrites.refl.after_push rfl (.inr hu)
  · exact (ListedWrites.refl.after_push rfl (.inl hu)).after_setPc rfl

theorem execRet_listedWrites (h : execRet s = .next t) : ListedWrites .ret s t := by
  rw [execRet_eq] at h
  refine .of_settle_map (fun u hu => ?_) (fun p hp => ?_) h
  · exact ListedWrites.refl.after_pop (w := 0) rfl (.inr hu)
  · exact (ListedWrites.refl.after_pop rfl (.inl hp)).after_setPc rfl

/-- The two key skips, whichever way they read the key (R220, R221). -/
theorem keySkip_listedWrites {ins : Instr} (hp : writesPc ins = true) {x : Reg} {c : Fin 16 → Bool}
    (h : settle ((keyCode s x).map (fun k => skipIf (c k) s)) = .next t) : ListedWrites ins s t := by
  refine .of_settle_map (fun u hu => ?_) (fun k _ => ListedWrites.refl.after_skipIf hp) h
  obtain ⟨k, he, -⟩ | ⟨-, he⟩ := keyCode_cases s x
  · cases he.symm.trans hu
  · obtain rfl := Except.error.inj (he.symm.trans hu)
    exact ListedWrites.refl.after_raise

theorem execStoreRegs_listedWrites {x : Reg} (h : execStoreRegs x s = .next t) :
    ListedWrites (.storeRegs x) s t := by
  rw [execStoreRegs_eq] at h
  refine .of_settle_map (fun u hu => ?_) (fun u hu => ?_) h
  · exact .after_storeList rfl _ s .refl (.inr hu)
  · exact (ListedWrites.after_storeList rfl _ s .refl (.inl hu)).after_advanceI rfl

theorem execLoadRegs_listedWrites {x : Reg} (h : execLoadRegs x s = .next t) :
    ListedWrites (.loadRegs x) s t := by
  have hks : ∀ k ∈ regsUpTo x, writesV (.loadRegs x) k = true := fun k hk =>
    decide_eq_true ((mem_regsUpTo x k).1 hk)
  rw [execLoadRegs_eq] at h
  refine .of_settle_map (fun u hu => ?_) (fun u hu => ?_) h
  · exact .after_loadList _ s hks .refl (.inr hu)
  · exact (ListedWrites.after_loadList _ s hks .refl (.inl hu)).after_advanceI rfl

theorem execDrw_listedWrites {x y : Reg} {n : BitVec 4} (h : execDrw x y n s = .next t) :
    ListedWrites (.drw x y n) s t := by
  have hclear : ListedWrites (.drw x y n) s (writeV s flagReg 0) := ListedWrites.refl.after_writeV rfl
  exact hclear.after_drawRows rfl rfl (settle_eq_next.1 h)

/-- Every execution writes only what is listed for its instruction, and keeps a recorded fault. -/
theorem exec_listedWrites {ins : Instr} (h : exec ins s = .next t) : ListedWrites ins s t := by
  have h0 : ListedWrites ins s s := .refl
  cases ins
  case call => exact execCall_listedWrites h
  case ret => exact execRet_listedWrites h
  case skp x => exact keySkip_listedWrites rfl ((execSkp_eq x s).symm.trans h)
  case sknp x => exact keySkip_listedWrites rfl ((execSknp_eq x s).symm.trans h)
  case bcd => exact ListedWrites.after_writeBytes rfl _ _ s h0 (settle_eq_next.1 h)
  case storeRegs => exact execStoreRegs_listedWrites h
  case loadRegs => exact execLoadRegs_listedWrites h
  case drw => exact execDrw_listedWrites h
  all_goals obtain rfl := Host.Outcome.next.inj h
  case sys | jp | jpV0 => exact h0.after_setPc rfl
  case seImm | sneImm | seReg | sneReg => exact h0.after_skipIf rfl
  case ldImm | ldReg | addImm | andReg | orReg | xorReg | readDt =>
    exact h0.after_writeV (by simp [writesV])
  case addReg | sub | subn | shr | shl =>
    exact h0.after_writeWithFlag (by simp [writesV]) (by simp [writesV])
  case ldI | addI | ldFont => exact h0.after_writeI rfl
  case rnd x kk =>
    have hdraw : ListedWrites (.rnd x kk) s (drawRandom s).2 :=
      { h0 with draws := fun hn => absurd rfl (hn x kk) }
    exact hdraw.after_writeV (by simp [writesV])
  case writeDt x => exact { h0 with dt := fun hn => absurd rfl (hn x) }
  case writeSt x => exact { h0 with st := fun hn => absurd rfl (hn x) }
  case waitKey x => exact { h0 with keyWait := fun hn => absurd rfl (hn x) }
  case cls => exact { h0 with bitmap := nofun }

end Executors

/-- Settles O57: the listed writes of every execution, the faulting ones included. -/
theorem onlyTheListedInstructionsWrite : Obligations.OnlyTheListedInstructionsWrite := by
  intro ins s t h
  have hw := exec_listedWrites h
  exact ⟨⟨hw.qIncI, hw.qShiftVy, hw.halted, hw.keysDown, hw.tickPos⟩, hw.stack, hw.pc, hw.dt, hw.st,
    hw.keyWait, hw.draws, fun _ => ⟨hw.v, hw.i, hw.mem, hw.bitmap⟩⟩

/-! ## What no instruction reads (R30-R32, R312)

`State.retune ft fi fs s` puts the sound timer and the two quirks through functions: another value of ST
with `fi = fs = id`, other quirks with `ft = id`. Every shared operation but the two that read a quirk
commutes with it, so each executor does. -/

/-- The state with its sound timer and its two quirks put through functions. -/
def State.retune (ft : Byte → Byte) (fi fs : Bool → Bool) (s : State) : State :=
  { s with st := ft s.st, qIncI := fi s.qIncI, qShiftVy := fs s.qShiftVy }

/-- The end of an operation that may raise: the state it raised in put through `g`, or its answer put
through `k`. -/
def mapEnd {α : Type} (g : State → State) (k : α → α) : Except State α → Except State α
  | .error t => .error (g t)
  | .ok a => .ok (k a)

theorem settle_mapEnd {g : State → State} {e : Except State State} {t : State}
    (h : settle e = .next t) : settle (mapEnd g g e) = .next (g t) := by
  obtain rfl | rfl := settle_eq_next.1 h <;> rfl

/-- An executor that goes on with `f` after an operation that may raise commutes with `g` when both
do. -/
theorem settle_map_mapEnd {α : Type} {g : State → State} {k : α → α} {e e' : Except State α}
    {f f' : α → State} {t : State} (he : e' = mapEnd g k e) (hf : ∀ a, f' (k a) = g (f a))
    (h : settle (e.map f) = .next t) : settle (e'.map f') = .next (g t) := by
  subst he
  cases e with
  | error u =>
    obtain rfl := Host.Outcome.next.inj h
    rfl
  | ok a =>
    obtain rfl := Host.Outcome.next.inj h
    exact congrArg Host.Outcome.next (hf a)

section Retune

variable (ft : Byte → Byte) (fi fs : Bool → Bool) (s : State)

@[simp] theorem retune_fault : (s.retune ft fi fs).fault = s.fault := rfl

@[simp] theorem readV_retune (x : Reg) : readV (s.retune ft fi fs) x = readV s x := rfl

theorem raise_retune (f : Fault) : raise (s.retune ft fi fs) f = (raise s f).retune ft fi fs := by
  unfold raise
  rw [retune_fault]
  cases s.fault <;> rfl

theorem skipIf_retune (c : Bool) : skipIf c (s.retune ft fi fs) = (skipIf c s).retune ft fi fs := by
  cases c <;> rfl

/-- The end of a block transfer reads quirk (a), which `retune ft id id` keeps (R31). -/
theorem advanceI_retune_id (x : Reg) :
    advanceI (s.retune ft id id) x = (advanceI s x).retune ft id id := by
  have hq : (s.retune ft id id).qIncI = s.qIncI := rfl
  unfold advanceI
  rw [hq]
  cases s.qIncI <;> rfl

theorem push_retune (w : Word) :
    push (s.retune ft fi fs) w
      = mapEnd (State.retune ft fi fs) (State.retune ft fi fs) (push s w) := by
  have hsp : (s.retune ft fi fs).sp = s.sp := rfl
  simp only [push, raise_retune, hsp]
  split <;> rfl

theorem pop_retune :
    pop (s.retune ft fi fs)
      = mapEnd (State.retune ft fi fs) (Prod.map id (State.retune ft fi fs)) (pop s) := by
  have hsp : (s.retune ft fi fs).sp = s.sp := rfl
  simp only [pop, raise_retune, hsp]
  split <;> rfl

theorem keyCode_retune (x : Reg) :
    keyCode (s.retune ft fi fs) x = mapEnd (State.retune ft fi fs) id (keyCode s x) := by
  simp only [keyCode, raise_retune, readV_retune]
  split <;> rfl

theorem memWrite_retune (a : Nat) (b : Byte) :
    memWrite (s.retune ft fi fs) a b
      = mapEnd (State.retune ft fi fs) (State.retune ft fi fs) (memWrite s a b) := by
  rw [memWrite_eq, memWrite_eq, raise_retune]
  split <;> rfl

theorem writeBytes_retune :
    ∀ (bs : List Byte) (a : Nat) (s : State),
      writeBytes (s.retune ft fi fs) a bs
        = mapEnd (State.retune ft fi fs) (State.retune ft fi fs) (writeBytes s a bs)
  | [], _, _ => rfl
  | b :: bs, a, s => by
    simp only [writeBytes, memWrite_retune]
    cases memWrite s a b with
    | error u => rfl
    | ok u => exact writeBytes_retune bs (a + 1) u

theorem storeList_retune (base : Nat) :
    ∀ (ks : List Reg) (s : State),
      storeList base ks (s.retune ft fi fs)
        = mapEnd (State.retune ft fi fs) (State.retune ft fi fs) (storeList base ks s)
  | [], _ => rfl
  | k :: ks, s => by
    simp only [storeList, readV_retune, memWrite_retune]
    cases memWrite s (base + k.val) (readV s k) with
    | error u => rfl
    | ok u => exact storeList_retune base ks u

theorem loadList_retune (base : Nat) :
    ∀ (ks : List Reg) (s : State),
      loadList base ks (s.retune ft fi fs)
        = mapEnd (State.retune ft fi fs) (State.retune ft fi fs) (loadList base ks s)
  | [], _ => rfl
  | k :: ks, s => by
    simp only [loadList, memRead_eq, raise_retune]
    by_cases hk : base + k.val ≤ 0xFFF
    · simp only [if_pos hk]
      exact loadList_retune base ks (writeV s k (byteAt s (base + k.val)))
    · simp only [if_neg hk]
      rfl

theorem setPixel_retune (off : Bitmap → Nat → Nat → Bitmap × Bool) (px py : Nat) :
    setPixel off (s.retune ft fi fs) px py
      = ((setPixel off s px py).1.retune ft fi fs, (setPixel off s px py).2) := by
  unfold setPixel
  split <;> rfl

theorem drawBit_retune (d : DrawArgs) (r c : Nat) :
    drawBit d r c (s.retune ft fi fs) = (drawBit d r c s).retune ft fi fs := by
  have hcorner : ∀ q b, cornerAt d.sampling (s.retune ft fi fs) q b = cornerAt d.sampling s q b :=
    fun _ _ => rfl
  simp only [drawBit, hcorner, setPixel_retune]
  split <;> rfl

theorem drawRow_retune (d : DrawArgs) (r : Nat) (b : Byte) :
    ∀ (cs : List Nat) (s : State),
      drawRow d r b cs (s.retune ft fi fs) = (drawRow d r b cs s).retune ft fi fs
  | [], _ => rfl
  | c :: cs, s => by
    simp only [drawRow, drawBit_retune]
    split
    · exact drawRow_retune d r b cs (drawBit d r c s)
    · exact drawRow_retune d r b cs s

theorem drawRows_retune (d : DrawArgs) :
    ∀ (n r : Nat) (s : State),
      drawRows d n r (s.retune ft fi fs)
        = mapEnd (State.retune ft fi fs) (State.retune ft fi fs) (drawRows d n r s)
  | 0, _, _ => rfl
  | n + 1, r, s => by
    have haddr : dataAddress (s.retune ft fi fs) r = dataAddress s r := rfl
    have hbyte : ∀ a, byteAt (s.retune ft fi fs) a = byteAt s a := fun _ => rfl
    simp only [drawRows, memRead_eq, haddr, hbyte, raise_retune, drawRow_retune]
    by_cases ha : dataAddress s r ≤ 0xFFF
    · simp only [if_pos ha]
      exact drawRows_retune d n (r + 1) _
    · simp only [if_neg ha]
      rfl

variable {s} {t : State}

/-- Every execution commutes with `retune`, which may change ST unless the instruction writes it and the
quirks unless the instruction is one of the four that depend on them. -/
theorem exec_retune {ins : Instr} (hst : ∀ x, ins = .writeSt x → ft = id)
    (hq : readsQuirks ins = true → fi = id ∧ fs = id) (h : exec ins s = .next t) :
    exec ins (s.retune ft fi fs) = .next (t.retune ft fi fs) := by
  cases ins
  case call nnn =>
    simp only [exec, execCall_eq] at h ⊢
    exact settle_map_mapEnd (push_retune ft fi fs s _) (fun _ => rfl) h
  case ret =>
    simp only [exec, execRet_eq] at h ⊢
    exact settle_map_mapEnd (pop_retune ft fi fs s) (fun _ => rfl) h
  case skp x =>
    simp only [exec, execSkp_eq] at h ⊢
    exact settle_map_mapEnd (keyCode_retune ft fi fs s x) (fun _ => skipIf_retune ft fi fs s _) h
  case sknp x =>
    simp only [exec, execSknp_eq] at h ⊢
    exact settle_map_mapEnd (keyCode_retune ft fi fs s x) (fun _ => skipIf_retune ft fi fs s _) h
  case bcd =>
    exact (congrArg settle (writeBytes_retune ft fi fs _ _ s)).trans (settle_mapEnd h)
  case storeRegs x =>
    obtain ⟨rfl, rfl⟩ := hq rfl
    simp only [exec, execStoreRegs_eq] at h ⊢
    exact settle_map_mapEnd (storeList_retune ft id id _ _ s) (fun u => advanceI_retune_id ft u x) h
  case loadRegs x =>
    obtain ⟨rfl, rfl⟩ := hq rfl
    simp only [exec, execLoadRegs_eq] at h ⊢
    exact settle_map_mapEnd (loadList_retune ft id id _ _ s) (fun u => advanceI_retune_id ft u x) h
  case drw =>
    exact (congrArg settle (drawRows_retune ft fi fs _ _ 0 _)).trans (settle_mapEnd h)
  all_goals obtain rfl := Host.Outcome.next.inj h
  case seImm | sneImm | seReg | sneReg => exact congrArg Host.Outcome.next (skipIf_retune ft fi fs s _)
  case shr | shl =>
    obtain ⟨rfl, rfl⟩ := hq rfl
    rfl
  case writeSt x =>
    obtain rfl := hst x rfl
    rfl
  all_goals rfl

end Retune

/-- Settles O58: every execution commutes with another value of ST but LD ST, which overwrites it. -/
theorem noInstructionReadsTheSoundTimer : Obligations.NoInstructionReadsTheSoundTimer := by
  intro ins s t b h
  constructor
  · rintro x rfl
    obtain rfl := Host.Outcome.next.inj h
    rfl
  · intro hne
    exact exec_retune (fun _ => b) id id (fun x hx => absurd hx (hne x)) (fun _ => ⟨rfl, rfl⟩) h

/-- Settles O59: every execution but the four commutes with other quirk values. -/
theorem onlyFourInstructionsReadTheQuirks : Obligations.OnlyFourInstructionsReadTheQuirks := by
  intro ins s t a b hreads h
  exact exec_retune id (fun _ => a) (fun _ => b) (fun _ _ => rfl)
    (fun hq => Bool.noConfusion (hreads.symm.trans hq)) h

/-! ## The fault record (R34, R262, R274) -/

section Faulted

variable {s t : State} {f : Fault}

/-- A faulted core does not execute (R262). -/
theorem executes_of_fault (h : s.fault = some f) : executes s = false := by simp [executes, h]

theorem cycle_of_fault (h : s.fault = some f) : cycle s = .next s := by
  simp [cycle, executes_of_fault h]

theorem runTick_of_fault (h : s.fault = some f) : runTick s = .next s := by
  simp [runTick, executes_of_fault h]

/-- Raising is recorded once (R261). -/
theorem raise_of_fault (h : s.fault = some f) (g : Fault) : raise s g = s := by simp [raise, h]

theorem afterCycle_fault (s : State) : (afterCycle s).fault = s.fault := by rw [afterCycle_eq]

/-- A step keeps the record: it does nothing, or a cycle that does nothing and the bookkeeping (R274). -/
theorem step_keeps_fault (h : s.fault = some f) (hstep : step s = .next t) : t.fault = some f := by
  obtain ⟨-, -, rfl⟩ | ⟨u, hu, rfl⟩ := step_cases hstep
  · exact h
  · obtain rfl := Host.Outcome.next.inj ((cycle_of_fault h).symm.trans hu)
    rw [afterCycle_fault, h]

/-- A faulted core ignores a delivered key (R272). -/
theorem acceptKey_of_fault (h : s.fault = some f) (k : Fin 16) : acceptKey k s = s := by
  simp [acceptKey, h]

/-- No call of the host clears the record, `reset()` included (R34). -/
theorem hostCall_keeps_fault (h : s.fault = some f) {op : HostOp} (hcall : hostCall op s = .next t) :
    t.fault = some f := by
  unfold hostCall at hcall
  split at hcall
  · cases hcall
  cases op with
  | loadProgram bytes =>
    simp only [loadProgram] at hcall
    split at hcall <;> cases hcall
    exact h
  | store address byte =>
    simp only [hostStore] at hcall
    split at hcall <;> cases hcall
    exact h
  | reset =>
    cases hcall
    rw [hostReset, resetWith_fault, h]
  | runTick =>
    simp only [hostRunTick, runTick_of_fault h] at hcall
    cases hcall
    exact h
  | setQuirk name b =>
    simp only [setQuirk] at hcall
    split at hcall
    · cases hcall
      exact h
    · split at hcall <;> cases hcall
      exact h
  | deliverKeyPress k =>
    simp only [deliverKeyPress, acceptKey_of_fault h] at hcall
    split at hcall <;> cases hcall
    exact h
  | halt | resume | keyState k down =>
    cases hcall
    exact h

end Faulted

/-- Settles O14: a faulted core does nothing, and no instruction and no call of the host clears the
record. -/
theorem faultIsSticky : Obligations.FaultIsSticky := by
  intro s f hs
  have hstep : s.tickPos = 0 → step s = .next s := fun h0 => by
    simp [step, tickSlot, h0, executes_of_fault hs]
  exact ⟨raise_of_fault hs, cycle_of_fault hs, runTick_of_fault hs, hstep,
    fun _ => step_keeps_fault hs, fun _ _ h => (exec_listedWrites h).fault f hs,
    fun _ _ => hostCall_keeps_fault hs⟩

end Sys2Proof.Machine
end

section
/-! PROOFS of the family 20_memory: byte accesses, fetch, the write that the next fetch sees, the placed
instruction, and the canonical form that every step keeps. -/

namespace Sys2Proof.Machine

/-! ## Byte accesses (R61, R62) -/

/-- Settles O9: both accesses on either side of the bound. -/
theorem memoryAccessRules : Obligations.MemoryAccessRules := by
  intro s a b hm hs
  constructor
  · intro ha
    have hw : memWrite s a b = .ok { s with mem := s.mem.write a b } := by rw [memWrite_eq, if_pos ha]
    exact ⟨by rw [memRead_eq, if_pos ha], _, hw, rfl, fun _ => byteAt_memWrite s hm hw⟩
  · intro ha
    have hout : ¬ a ≤ 0xFFF := Nat.not_le.2 ha
    rw [memRead_eq, memWrite_eq, if_neg hout, if_neg hout, raise_of_noFault s _ hs]
    exact ⟨rfl, rfl⟩

/-! ## Fetch (R65, R66, R72) -/

/-- `Fetch` under either setting: alignment, then the range of the two bytes, the second of which faults
at 0x1000, then the word (R66). -/
theorem fetchWith_eq (allowOdd : Bool) (s : State) :
    fetchWith allowOdd s =
      if s.pc.toNat % 2 = 1 ∧ allowOdd = false then .error (raise s (.misalignedFetch s.pc))
      else if s.pc.toNat ≤ 0xFFE then
        .ok (wordOfBytes (byteAt s s.pc.toNat) (byteAt s (s.pc.toNat + 1)))
      else .error (raise s (.memOutOfRange (max s.pc.toNat 0x1000))) := by
  unfold fetchWith
  rw [memRead_eq, memRead_eq]
  congr 1
  by_cases hin : s.pc.toNat ≤ 0xFFE
  · have h1 : s.pc.toNat ≤ 0xFFF := by omega
    have h2 : s.pc.toNat + 1 ≤ 0xFFF := by omega
    simp only [if_pos hin, if_pos h1, if_pos h2]
  · have h2 : ¬ s.pc.toNat + 1 ≤ 0xFFF := by omega
    by_cases h1 : s.pc.toNat ≤ 0xFFF
    · have hmax : max s.pc.toNat 0x1000 = s.pc.toNat + 1 := by omega
      simp only [if_neg hin, if_pos h1, if_neg h2, hmax]
    · have hmax : max s.pc.toNat 0x1000 = s.pc.toNat := by omega
      simp only [if_neg hin, if_neg h1, hmax]

/-- A word is its high byte times 256 plus its low byte (R65). -/
theorem wordOfBytes_toNat (hi lo : Byte) : (wordOfBytes hi lo).toNat = hi.toNat * 256 + lo.toNat := by
  have := hi.isLt
  have := lo.isLt
  rw [wordOfBytes, BitVec.toNat_ofNat]
  omega

/-- Settles O11: the cases of `fetchWith_eq`. -/
theorem fetchRule : Obligations.FetchRule := by
  refine ⟨fun _ => rfl, fun s allowOdd hs => ?_⟩
  simp only [fetchWith_eq, raise_of_noFault s _ hs]
  refine ⟨fun hodd hset => if_pos ⟨hodd, hset⟩, fun hok => ?_⟩
  have haligned : ¬ (s.pc.toNat % 2 = 1 ∧ allowOdd = false) := by
    rintro ⟨hodd, rfl⟩
    obtain heven | hset := hok
    · omega
    · cases hset
  simp only [if_neg haligned]
  refine ⟨fun hout => ?_, fun hlast => ?_, fun hin => ?_⟩
  · rw [if_neg (by omega), max_eq_left hout]
  · rw [if_neg (by omega), hlast]
    rfl
  · exact ⟨_, if_pos hin, wordOfBytes_toNat _ _⟩

/-- The fetch at an aligned PC inside memory (R66). -/
theorem fetch_inside {s : State} (heven : s.pc.toNat % 2 = 0) (hin : s.pc.toNat ≤ 0xFFE) :
    fetch s = .ok (wordOfBytes (byteAt s s.pc.toNat) (byteAt s (s.pc.toNat + 1))) := by
  rw [fetch_eq, if_neg (by omega), if_pos (by omega)]

/-- Settles O12: the fetch reads its two bytes after the write. -/
theorem fetchSeesTheLatestWrite : Obligations.FetchSeesTheLatestWrite := by
  intro s t a b hm hw heven hin
  obtain ⟨-, ht, -⟩ := memWrite_ok s hw
  have hpc : t.pc = s.pc := by rw [ht]
  rw [← hpc] at heven hin ⊢
  rw [fetch_inside heven hin, byteAt_memWrite s hm hw, byteAt_memWrite s hm hw]
  simp only [eq_comm]

/-- A fetch that raises changes nothing but the fault record (R66, R261). -/
theorem fetch_error {s t : State} (h : fetch s = .error t) : ∃ f, t = raise s f := by
  rw [fetch_eq] at h
  split at h
  · exact ⟨_, (Except.error.inj h).symm⟩
  · split at h
    · cases h
    · exact ⟨_, (Except.error.inj h).symm⟩

/-! ## The placed instruction (R65, R273; log 3) -/

/-- The decoder reads a table word from its two bytes (R65, R84). -/
theorem decodeTableWord_eq_some {nbits w : Nat} {i : Instr} :
    decodeTableWord nbits w = some i ↔ decode (tableWord nbits w) = .ok i := by
  simp only [decodeTableWord, decodeBytes, wordOfBytes_hiByte_loByte]
  cases decode (tableWord nbits w) <;> simp

/-- A table word of 16 bits. -/
theorem tableWord_sixteen (w : Nat) : tableWord 16 w = BitVec.ofNat 16 w :=
  BitVec.eq_of_toNat_eq (by simp [tableWord])

section Placed

variable {s : State} (w : Word)

/-- A core with a placed word executes. -/
theorem executes_placeWord : executes (placeWord s w) = true := rfl

/-- A placed word is laid out big-endian at PC, as far as memory goes (R65). -/
theorem byteAt_placeWord (hm : MemoryOk s) (j : Nat) :
    byteAt (placeWord s w) j =
      if j = s.pc.toNat + 1 ∧ s.pc.toNat + 1 ≤ 0xFFF then loByte w
      else if j = s.pc.toNat ∧ s.pc.toNat ≤ 0xFFF then hiByte w else byteAt s j := by
  have hlo := read_pokeByte (a := s.pc.toNat + 1) (j := j) (b := loByte w)
    (pokeByte_wf (a := s.pc.toNat) (b := hiByte w) hm)
  rw [read_pokeByte hm] at hlo
  exact hlo

/-- A placed word is the one the next fetch gives (R66). -/
theorem fetch_placeWord (hm : MemoryOk s) (heven : s.pc.toNat % 2 = 0) (hin : s.pc.toNat ≤ 0xFFE) :
    fetch (placeWord s w) = .ok w := by
  have hhi : byteAt (placeWord s w) s.pc.toNat = hiByte w := by
    rw [byteAt_placeWord w hm, if_neg (by omega), if_pos (by omega)]
  have hlo : byteAt (placeWord s w) (s.pc.toNat + 1) = loByte w := by
    rw [byteAt_placeWord w hm, if_pos (by omega)]
  have hfetch : fetch (placeWord s w) = .ok (wordOfBytes (byteAt (placeWord s w) s.pc.toNat)
      (byteAt (placeWord s w) (s.pc.toNat + 1))) := fetch_inside (s := placeWord s w) heven hin
  rw [hfetch, hhi, hlo, wordOfBytes_hiByte_loByte]

end Placed

/-- A step of an executing core that fetches and decodes an instruction is its execution, the advance of
PC and the tick's bookkeeping (R273; log 1). -/
theorem step_of_decoded {s t : State} {w : Word} {i : Instr} (hexec : executes s = true)
    (hfetch : fetch s = .ok w) (hdecode : decode w = .ok i)
    (hrun : exec i { s with pcSet := false } = .next t) :
    step s = .next (afterCycle (advance t)) := by
  have hcycle : cycle s = .next (advance t) := by
    simp only [cycle, runInstr, hexec, hfetch, hdecode, hrun, if_true]
  simp [step, tickSlot, hexec, hcycle]

/-- Settles O44: the placed word is fetched, decodes, and an executing core runs what it decoded. -/
theorem placedWordIsRunNext : Obligations.PlacedWordIsRunNext := by
  intro s w i hm heven hin hdec
  have hfetch : fetch (s.withFetchWord 16 w) = .ok (tableWord 16 w) :=
    fetch_placeWord (tableWord 16 w) hm heven hin
  refine ⟨tableWord_sixteen w ▸ hfetch, fun t hrun => ?_⟩
  exact step_of_decoded (executes_placeWord _) hfetch (decodeTableWord_eq_some.1 hdec) hrun

/-! ## The canonical form (R60, R62) -/

@[simp] theorem advanceI_mem (s : State) (x : Reg) : (advanceI s x).mem = s.mem := by
  unfold advanceI
  split <;> rfl

@[simp] theorem advance_mem (s : State) : (advance s).mem = s.mem := by rw [advance_eq]

@[simp] theorem afterCycle_mem (s : State) : (afterCycle s).mem = s.mem := by rw [afterCycle_eq]

section Canonical

variable {s t : State} (hm : MemoryOk s)

include hm

theorem execStoreRegs_keeps_memoryOk {x : Reg} (h : execStoreRegs x s = .next t) : MemoryOk t := by
  have hstore := fun u hu => (storeList_frame (dataAddress s 0) (regsUpTo x) s u hu).2 hm
  rw [execStoreRegs_eq] at h
  cases hrun : storeList (dataAddress s 0) (regsUpTo x) s with
  | error u =>
    obtain rfl : u = t := by simpa [hrun, settle, Except.map] using h
    exact hstore u (.inr hrun)
  | ok u =>
    obtain rfl : advanceI u x = t := by simpa [hrun, settle, Except.map] using h
    rw [MemoryOk, advanceI_mem]
    exact hstore u (.inl hrun)

/-- An execution keeps the canonical form: BCD and the block store write bytes one by one inside memory,
and no other instruction writes memory. -/
theorem exec_keeps_memoryOk {ins : Instr} (h : exec ins s = .next t) : MemoryOk t := by
  have hmem := (exec_listedWrites h).mem
  cases ins
  case bcd => exact (writeBytes_frame _ _ s t (settle_eq_next.1 h)).2 hm
  case storeRegs => exact execStoreRegs_keeps_memoryOk hm h
  all_goals exact (congrArg Memory.wf (hmem rfl)).trans hm

/-- A cycle keeps the canonical form, however it ends (R273). -/
theorem cycle_keeps_memoryOk (h : cycle s = .next t) : MemoryOk t := by
  obtain ⟨-, rfl⟩ | ⟨-, hfetch⟩ | ⟨w, e, -, -, -, rfl⟩ | ⟨w, i, u, -, -, -, hrun, rfl⟩ := cycle_cases h
  · exact hm
  · obtain ⟨f, rfl⟩ := fetch_error hfetch
    rwa [MemoryOk, raise_mem]
  · rwa [MemoryOk, raise_mem]
  · rw [MemoryOk, advance_mem]
    exact exec_keeps_memoryOk (s := { s with pcSet := false }) hm hrun

theorem step_keeps_memoryOk (h : step s = .next t) : MemoryOk t := by
  obtain ⟨-, -, rfl⟩ | ⟨u, hcycle, rfl⟩ := step_cases h
  · exact hm
  · rw [MemoryOk, afterCycle_mem]
    exact cycle_keeps_memoryOk hm hcycle

end Canonical

/-- Settles O48: a step is a cycle and bookkeeping outside memory, and every cycle keeps the form. -/
theorem stepKeepsMemoryCanonical : Obligations.StepKeepsMemoryCanonical :=
  fun _ _ => step_keeps_memoryOk

end Sys2Proof.Machine
end

section
/-! PROOFS of the family 30_encoding: the decoder leaf by leaf, what it refuses, and that it undoes the
encoder. -/

namespace Sys2Proof.Machine

/-! ## The fields of a word (R81) -/

/-- Two nibbles spell the low byte. -/
theorem fieldKk_eq_iff {w : Word} {kk : Byte} :
    fieldKk w = kk ↔ w.extractLsb' 4 4 = kk.extractLsb' 4 4 ∧ fieldN w = kk.extractLsb' 0 4 := by
  simp only [← BitVec.toNat_inj, fieldKk_toNat, fieldN_toNat, BitVec.extractLsb'_toNat,
    Nat.shiftRight_eq_div_pow]
  have := kk.isLt
  omega

/-- The second register index is the nibble `w[7:4]`. -/
theorem fieldY_val_eq_iff {w : Word} {k : Nat} (hk : k < 16) :
    (fieldY w).val = k ↔ w.extractLsb' 4 4 = BitVec.ofNat 4 k := by
  rw [← BitVec.toNat_inj, BitVec.toNat_ofNat, Nat.mod_eq_of_lt hk]
  rfl

/-- The low byte of `nnn` is the low byte of the word. -/
theorem extractLsb'_fieldNnn (w : Word) : (fieldNnn w).extractLsb' 0 8 = fieldKk w :=
  BitVec.eq_of_toNat_eq (by simp [fieldNnn, fieldKk])

/-- Bit 0 of a word says whether it is odd (R87). -/
theorem getLsbD_zero_eq (w : Word) : w.getLsbD 0 = decide (w.toNat % 2 = 1) := by
  simp [BitVec.getLsbD, Nat.testBit_zero]

/-- SYS of a word's low 12 bits is well-formed unless the low byte is that of CLS or of RET (R85). -/
theorem wellFormed_sys_fieldNnn {w : Word} :
    (Instr.sys (fieldNnn w)).wellFormed = true ↔ fieldKk w ≠ 0xE0 ∧ fieldKk w ≠ 0xEE := by
  simp [Instr.wellFormed, sysAddressOk, extractLsb'_fieldNnn]

/-! ## The single-leaf families (R89) -/

/-- Formats XY and XYN: every word with this top nibble is the instruction with its `x`, `y` and `n`. -/
def EncodedXYN (op : BitVec 4) (mk : Reg → Reg → BitVec 4 → Instr) : Prop :=
  ∀ w : Word, fieldOp w = op → decode w = .ok (mk (fieldX w) (fieldY w) (fieldN w))

theorem encoded_jp : EncodedA 0x1 .jp := fun w h => by simp [decode, decodeWith, h]
theorem encoded_call : EncodedA 0x2 .call := fun w h => by simp [decode, decodeWith, h]
theorem encoded_ldI : EncodedA 0xA .ldI := fun w h => by simp [decode, decodeWith, h]
theorem encoded_jpV0 : EncodedA 0xB .jpV0 := fun w h => by simp [decode, decodeWith, h]
theorem encoded_seImm : EncodedXKK 0x3 .seImm := fun w h => by simp [decode, decodeWith, h]
theorem encoded_sneImm : EncodedXKK 0x4 .sneImm := fun w h => by simp [decode, decodeWith, h]
theorem encoded_ldImm : EncodedXKK 0x6 .ldImm := fun w h => by simp [decode, decodeWith, h]
theorem encoded_addImm : EncodedXKK 0x7 .addImm := fun w h => by simp [decode, decodeWith, h]
theorem encoded_rnd : EncodedXKK 0xC .rnd := fun w h => by simp [decode, decodeWith, h]
theorem encoded_drw : EncodedXYN 0xD .drw := fun w h => by simp [decode, decodeWith, h]

/-- `w[3:0]` is ignored. -/
theorem encoded_seReg : EncodedXYN 0x5 fun x y _ => .seReg x y :=
  fun w h => by simp [decode, decodeWith, h]

/-- `w[3:0]` is ignored. -/
theorem encoded_sneReg : EncodedXYN 0x9 fun x y _ => .sneReg x y :=
  fun w h => by simp [decode, decodeWith, h]

/-! ## The families that branch further (R85-R88) -/

section Families

variable {w : Word}

theorem decode_family0 (h : fieldOp w = 0x0) : decode w = decodeFamily0 w := by
  simp [decode, decodeWith, h]

theorem decode_family8 (h : fieldOp w = 0x8) : decode w = decodeFamily8 w := by
  simp [decode, decodeWith, h]

theorem decode_familyE (h : fieldOp w = 0xE) : decode w = decodeFamilyE w := by
  simp [decode, decodeWith, h]

theorem decodeWith_familyF (f : FDecode) (h : fieldOp w = 0xF) :
    decodeWith f w = decodeFamilyF f w := by
  simp [decodeWith, h]

theorem decode_familyF (h : fieldOp w = 0xF) : decode w = decodeFamilyFExact w :=
  decodeWith_familyF .exact h

end Families

/-- Family 0 keys on the low byte (R85). -/
theorem decodeFamily0_eq (w : Word) : decodeFamily0 w =
    if fieldKk w = 0xE0 then .ok .cls
      else if fieldKk w = 0xEE then .ok .ret else .ok (.sys (fieldNnn w)) := by
  unfold decodeFamily0
  split
  next hkk => exact (if_pos hkk).symm
  next hkk => rw [hkk]; rfl
  next hcls hret => exact ((if_neg hcls).trans (if_neg hret)).symm

/-- Family E keys on the parity of the word (R87). -/
theorem decodeFamilyE_eq (w : Word) : decodeFamilyE w =
    if w.toNat % 2 = 0 then .ok (.skp (fieldX w)) else .ok (.sknp (fieldX w)) := by
  unfold decodeFamilyE
  rw [getLsbD_zero_eq]
  obtain h | h := Nat.mod_two_eq_zero_or_one w.toNat <;> simp [h]

/-! The nine leaves of family 8 (R86). -/

theorem encoded_ldReg : Encoded8 0x0 .ldReg :=
  fun w h hn => by simp [decode_family8 h, decodeFamily8, hn]

theorem encoded_orReg : Encoded8 0x1 .orReg :=
  fun w h hn => by simp [decode_family8 h, decodeFamily8, hn]

theorem encoded_andReg : Encoded8 0x2 .andReg :=
  fun w h hn => by simp [decode_family8 h, decodeFamily8, hn]

theorem encoded_xorReg : Encoded8 0x3 .xorReg :=
  fun w h hn => by simp [decode_family8 h, decodeFamily8, hn]

theorem encoded_addReg : Encoded8 0x4 .addReg :=
  fun w h hn => by simp [decode_family8 h, decodeFamily8, hn]

theorem encoded_sub : Encoded8 0x5 .sub :=
  fun w h hn => by simp [decode_family8 h, decodeFamily8, hn]

theorem encoded_shr : Encoded8 0x6 .shr :=
  fun w h hn => by simp [decode_family8 h, decodeFamily8, hn]

theorem encoded_subn : Encoded8 0x7 .subn :=
  fun w h hn => by simp [decode_family8 h, decodeFamily8, hn]

theorem encoded_shl : Encoded8 0xE .shl :=
  fun w h hn => by simp [decode_family8 h, decodeFamily8, hn]

/-! The nine leaves of family F (R88). -/

theorem encoded_readDt : EncodedF 0x07 .readDt :=
  fun w h hkk => by simp [decode_familyF h, decodeFamilyFExact, hkk]

theorem encoded_waitKey : EncodedF 0x0A .waitKey :=
  fun w h hkk => by simp [decode_familyF h, decodeFamilyFExact, hkk]

theorem encoded_writeDt : EncodedF 0x15 .writeDt :=
  fun w h hkk => by simp [decode_familyF h, decodeFamilyFExact, hkk]

theorem encoded_writeSt : EncodedF 0x18 .writeSt :=
  fun w h hkk => by simp [decode_familyF h, decodeFamilyFExact, hkk]

theorem encoded_addI : EncodedF 0x1E .addI :=
  fun w h hkk => by simp [decode_familyF h, decodeFamilyFExact, hkk]

theorem encoded_ldFont : EncodedF 0x29 .ldFont :=
  fun w h hkk => by simp [decode_familyF h, decodeFamilyFExact, hkk]

theorem encoded_bcd : EncodedF 0x33 .bcd :=
  fun w h hkk => by simp [decode_familyF h, decodeFamilyFExact, hkk]

theorem encoded_storeRegs : EncodedF 0x55 .storeRegs :=
  fun w h hkk => by simp [decode_familyF h, decodeFamilyFExact, hkk]

theorem encoded_loadRegs : EncodedF 0x65 .loadRegs :=
  fun w h hkk => by simp [decode_familyF h, decodeFamilyFExact, hkk]

/-! ## Decoding what the encoder writes (R91) -/

section Words

variable {op : Nat} (hop : op < 16)

include hop

theorem decode_wordA {mk : Addr12 → Instr} (h : EncodedA (BitVec.ofNat 4 op) mk) (nnn : Addr12) :
    decode (wordA op nnn) = .ok (mk nnn) := by
  obtain ⟨hfield, hnnn, -⟩ := fields_wordA op nnn hop
  rw [h _ hfield, hnnn]

theorem decode_wordXKK {mk : Reg → Byte → Instr} (h : EncodedXKK (BitVec.ofNat 4 op) mk) (x : Reg)
    (kk : Byte) : decode (wordXKK op x kk) = .ok (mk x kk) := by
  obtain ⟨hfield, hx, hkk⟩ := fields_wordXKK op x kk hop
  rw [h _ hfield, hx, hkk]

theorem decode_wordXYN {mk : Reg → Reg → BitVec 4 → Instr} (h : EncodedXYN (BitVec.ofNat 4 op) mk)
    (x y : Reg) (n : BitVec 4) : decode (wordXYN op x y n) = .ok (mk x y n) := by
  obtain ⟨hfield, hx, hy, hn⟩ := fields_wordXYN op x y n hop
  rw [h _ hfield, hx, hy, hn]

end Words

theorem decode_word8 {n : BitVec 4} {mk : Reg → Reg → Instr} (h : Encoded8 n mk) (x y : Reg) :
    decode (wordXYN 0x8 x y n) = .ok (mk x y) := by
  obtain ⟨hfield, hx, hy, hn⟩ := fields_wordXYN 0x8 x y n (by decide)
  rw [h _ hfield hn, hx, hy]

theorem decode_wordF {kk : Byte} {mk : Reg → Instr} (h : EncodedF kk mk) (x : Reg) :
    decode (wordXKK 0xF x kk) = .ok (mk x) := by
  obtain ⟨hfield, hx, hkk⟩ := fields_wordXKK 0xF x kk (by decide)
  rw [h _ hfield hkk, hx]

/-- Family E reads the low bit of `kk` alone (R87). -/
theorem decode_wordE (x : Reg) (kk : Byte) :
    decode (wordXKK 0xE x kk) = if kk.getLsbD 0 then .ok (.sknp x) else .ok (.skp x) := by
  obtain ⟨hfield, hx, hkk⟩ := fields_wordXKK 0xE x kk (by decide)
  rw [decode_familyE hfield, decodeFamilyE, getLsbD_zero_of_kk, hx, hkk]

/-- A SYS whose address is not the word of CLS or RET (R85). -/
theorem decode_wordA_of_sysAddressOk {nnn : Addr12} (h : sysAddressOk nnn = true) :
    decode (wordA 0x0 nnn) = .ok (.sys nnn) := by
  obtain ⟨hfield, hnnn, hkk⟩ := fields_wordA 0x0 nnn (by decide)
  obtain ⟨hcls, hret⟩ : nnn.extractLsb' 0 8 ≠ 0xE0 ∧ nnn.extractLsb' 0 8 ≠ 0xEE := by
    simpa [sysAddressOk] using h
  rw [decode_family0 hfield, decodeFamily0_eq, hkk, hnnn, if_neg hcls, if_neg hret]

/-- Settles O6: per instruction, the decoder's rule for its leaf at the fields of its word. -/
theorem decodeOfEncodeIsTheInstruction : Obligations.DecodeOfEncodeIsTheInstruction := by
  intro i hwf
  cases i with
  | sys nnn => exact decode_wordA_of_sysAddressOk hwf
  | cls => rfl
  | ret => rfl
  | jp nnn => exact decode_wordA (by decide) encoded_jp nnn
  | jpV0 nnn => exact decode_wordA (by decide) encoded_jpV0 nnn
  | call nnn => exact decode_wordA (by decide) encoded_call nnn
  | ldI nnn => exact decode_wordA (by decide) encoded_ldI nnn
  | seImm x kk => exact decode_wordXKK (by decide) encoded_seImm x kk
  | sneImm x kk => exact decode_wordXKK (by decide) encoded_sneImm x kk
  | ldImm x kk => exact decode_wordXKK (by decide) encoded_ldImm x kk
  | addImm x kk => exact decode_wordXKK (by decide) encoded_addImm x kk
  | rnd x kk => exact decode_wordXKK (by decide) encoded_rnd x kk
  | seReg x y => exact decode_wordXYN (by decide) encoded_seReg x y 0
  | sneReg x y => exact decode_wordXYN (by decide) encoded_sneReg x y 0
  | drw x y n => exact decode_wordXYN (by decide) encoded_drw x y n
  | ldReg x y => exact decode_word8 encoded_ldReg x y
  | addReg x y => exact decode_word8 encoded_addReg x y
  | sub x y => exact decode_word8 encoded_sub x y
  | subn x y => exact decode_word8 encoded_subn x y
  | andReg x y => exact decode_word8 encoded_andReg x y
  | orReg x y => exact decode_word8 encoded_orReg x y
  | xorReg x y => exact decode_word8 encoded_xorReg x y
  | shr x y => exact decode_word8 encoded_shr x y
  | shl x y => exact decode_word8 encoded_shl x y
  | addI x => exact decode_wordF encoded_addI x
  | bcd x => exact decode_wordF encoded_bcd x
  | storeRegs x => exact decode_wordF encoded_storeRegs x
  | loadRegs x => exact decode_wordF encoded_loadRegs x
  | ldFont x => exact decode_wordF encoded_ldFont x
  | readDt x => exact decode_wordF encoded_readDt x
  | writeDt x => exact decode_wordF encoded_writeDt x
  | writeSt x => exact decode_wordF encoded_writeSt x
  | waitKey x => exact decode_wordF encoded_waitKey x
  | skp x => exact decode_wordE x 0x9E
  | sknp x => exact decode_wordE x 0xA1

/-! ## The opcode map and the illegal words (R91, R92) -/

/-- The instruction has a word of its own, and the word fits the instruction's row (R91). -/
def FitsRow (w : Word) (i : Instr) : Prop := i.wellFormed = true ∧ w &&& tableMask i = tableMatch i

/-- The list of R92. -/
def IllegalWord (w : Word) : Prop :=
  (fieldOp w = 0x8 ∧ 8 ≤ (fieldN w).toNat ∧ fieldN w ≠ 0xE) ∨
    (fieldOp w = 0xF ∧
      fieldKk w ∉ ([0x07, 0x0A, 0x15, 0x18, 0x1E, 0x29, 0x33, 0x55, 0x65] : List Byte))

/-- An answer of the decoder that agrees with the opcode map: an instruction whose row the word fits, for
a word that is not illegal, or the refusal by name of an illegal one. -/
def FitsOpcodeMap (w : Word) : Except DecodeError Instr → Prop
  | .ok i => FitsRow w i ∧ ¬IllegalWord w
  | .error e => e = .illegal w ∧ IllegalWord w

section OpcodeMap

variable {w : Word}

/-- Families 8 and F alone have illegal words. -/
theorem not_illegalWord {op : BitVec 4} (hop : fieldOp w = op) (h8 : op ≠ 0x8) (hF : op ≠ 0xF) :
    ¬IllegalWord w := by
  subst hop
  rintro (⟨hop, -⟩ | ⟨hop, -⟩)
  · exact h8 hop
  · exact hF hop

theorem decodeFamily0_fits (hop : fieldOp w = 0x0) : FitsOpcodeMap w (decodeFamily0 w) := by
  have hlegal : ¬IllegalWord w := not_illegalWord hop (by decide) (by decide)
  unfold decodeFamily0
  split
  next hkk => exact ⟨⟨rfl, (and_maskX w).trans (by rw [hop, hkk]; rfl)⟩, hlegal⟩
  next hkk => exact ⟨⟨rfl, (and_maskX w).trans (by rw [hop, hkk]; rfl)⟩, hlegal⟩
  next hcls hret =>
    exact ⟨⟨wellFormed_sys_fieldNnn.2 ⟨hcls, hret⟩, (and_maskA w).trans (by rw [hop]; rfl)⟩, hlegal⟩

theorem decodeFamily8_fits (hop : fieldOp w = 0x8) : FitsOpcodeMap w (decodeFamily8 w) := by
  unfold decodeFamily8
  split
  case h_10 =>
    have hillegal : 8 ≤ (fieldN w).toNat ∧ fieldN w ≠ 0xE := by
      generalize fieldN w = n at *
      revert n
      simp only [imp_false]
      decide
    exact ⟨rfl, .inl ⟨hop, hillegal⟩⟩
  all_goals
    next hn =>
    exact ⟨⟨rfl, (and_maskXY w).trans (by rw [hop, hn]; rfl)⟩, by simp [IllegalWord, hop, hn]⟩

theorem decodeFamilyE_fits (hop : fieldOp w = 0xE) : FitsOpcodeMap w (decodeFamilyE w) := by
  have hlegal : ¬IllegalWord w := not_illegalWord hop (by decide) (by decide)
  have hrow : w &&& (0xF001 : Word) = 0xE000#16 ||| (BitVec.ofBool (w.getLsbD 0)).setWidth 16 := by
    rw [and_maskE, hop, getLsbD_zero_of_kk w, BitVec.and_one_eq_setWidth_ofBool_getLsbD]
    simp
  unfold decodeFamilyE
  split
  next hbit => exact ⟨⟨rfl, hrow.trans (by rw [hbit]; rfl)⟩, hlegal⟩
  next hbit =>
    rw [Bool.not_eq_true] at hbit
    exact ⟨⟨rfl, hrow.trans (by rw [hbit]; rfl)⟩, hlegal⟩

theorem decodeFamilyFExact_fits (hop : fieldOp w = 0xF) : FitsOpcodeMap w (decodeFamilyFExact w) := by
  unfold decodeFamilyFExact
  split
  case h_10 => exact ⟨rfl, .inr ⟨hop, by simp_all⟩⟩
  all_goals
    next hkk =>
    exact ⟨⟨rfl, (and_maskX w).trans (by rw [hop, hkk]; rfl)⟩, by simp [IllegalWord, hop, hkk]⟩

end OpcodeMap

/-- The decoder agrees with the opcode map at every word. -/
theorem decode_fits (w : Word) : FitsOpcodeMap w (decode w) := by
  unfold decode decodeWith
  split
  case h_1 hop => exact decodeFamily0_fits hop
  case h_9 hop => exact decodeFamily8_fits hop
  case h_15 hop => exact decodeFamilyE_fits hop
  case h_16 =>
    -- the only value left
    have hop : fieldOp w = 0xF := by
      generalize fieldOp w = op at *
      revert op
      decide
    exact decodeFamilyFExact_fits hop
  all_goals
    next hop =>
    exact ⟨⟨rfl, (and_maskA w).trans (by rw [hop]; rfl)⟩, not_illegalWord hop (by decide) (by decide)⟩

/-- Settles O7: the half of `decode_fits` about an instruction. -/
theorem decodedInstructionFitsItsRow : Obligations.DecodedInstructionFitsItsRow := by
  intro w i hdec
  have hfits := decode_fits w
  rw [hdec] at hfits
  exact hfits.1

/-- Settles O8: an answer is an instruction for a legal word or the refusal of an illegal one. -/
theorem refusedWordsAreTheIllegalOnes : Obligations.RefusedWordsAreTheIllegalOnes := by
  intro w e
  have hfits := decode_fits w
  cases hdec : decode w with
  | ok i =>
    rw [hdec] at hfits
    exact ⟨nofun, fun h => absurd h.2 hfits.2⟩
  | error e' =>
    rw [hdec] at hfits
    obtain ⟨rfl, hillegal⟩ := hfits
    exact ⟨fun h => ⟨(Except.error.inj h).symm, hillegal⟩, fun h => congrArg _ h.1.symm⟩

/-! ## The families as the obligations spell them -/

/-- Settles O1: the rule of each word's leaf. -/
theorem wordsOfTheSpecDecode : Obligations.WordsOfTheSpecDecode :=
  ⟨encoded_ldImm _ rfl, encoded_ldImm _ rfl, encoded_addReg _ rfl rfl, rfl, rfl, rfl,
    encoded_drw _ rfl, rfl, encoded_storeRegs _ rfl rfl, encoded_loadRegs _ rfl rfl⟩

/-- Settles O2: the equations of the two families. -/
theorem familiesZeroAndEDecode : Obligations.FamiliesZeroAndEDecode := fun w =>
  ⟨fun h => (decode_family0 h).trans (decodeFamily0_eq w),
    fun h => (decode_familyE h).trans (decodeFamilyE_eq w)⟩

/-- Settles O3: the nine leaves, and the refusal of an illegal word. -/
theorem familyEightDecodes : Obligations.FamilyEightDecodes := fun w h =>
  ⟨encoded_ldReg w h, encoded_orReg w h, encoded_andReg w h, encoded_xorReg w h, encoded_addReg w h,
    encoded_sub w h, encoded_shr w h, encoded_subn w h, encoded_shl w h,
    fun hlow hne => (refusedWordsAreTheIllegalOnes w _).2 ⟨rfl, .inl ⟨h, hlow, hne⟩⟩⟩

/-- Settles O5: one rule per family. -/
theorem singleLeafFamiliesDecode : Obligations.SingleLeafFamiliesDecode := fun w =>
  ⟨encoded_jp w, encoded_call w, encoded_seImm w, encoded_sneImm w, encoded_seReg w, encoded_ldImm w,
    encoded_addImm w, encoded_sneReg w, encoded_ldI w, encoded_jpV0 w, encoded_rnd w, encoded_drw w⟩

/-- Settles O4: under `exact` the nine leaves, and the refusal of an illegal word; under `nibble_tree` the
low byte of each `if` is its two nibbles, on which the tree splits. -/
theorem familyFDecodes : Obligations.FamilyFDecodes := by
  refine fun w h => ⟨?_, ?_⟩
  · split_ifs with h07 h0A h15 h18 h1E h29 h33 h55 h65
    · exact encoded_readDt w h h07
    · exact encoded_waitKey w h h0A
    · exact encoded_writeDt w h h15
    · exact encoded_writeSt w h h18
    · exact encoded_addI w h h1E
    · exact encoded_ldFont w h h29
    · exact encoded_bcd w h h33
    · exact encoded_storeRegs w h h55
    · exact encoded_loadRegs w h h65
    · have hkk : fieldKk w ∉ ([0x07, 0x0A, 0x15, 0x18, 0x1E, 0x29, 0x33, 0x55, 0x65] : List Byte) := by
        simp_all
      exact (refusedWordsAreTheIllegalOnes w _).2 ⟨rfl, .inr ⟨h, hkk⟩⟩
  · rw [decodeWith_familyF .nibbleTree h, decodeFamilyF, decodeFamilyFNibbleTree]
    simp (disch := decide) only [fieldKk_eq_iff, fieldY_val_eq_iff]
    split
    case h_1 hy =>
      rw [hy]
      split
      case h_3 => simp_all
      all_goals next hn => rw [hn]; rfl
    case h_2 hy =>
      rw [hy]
      split
      case h_4 => simp_all
      all_goals next hn => rw [hn]; rfl
    case h_7 => simp_all
    all_goals next hy => simp [hy]

end Sys2Proof.Machine
end

section
/-! PROOFS of the family 40_control_flow: the jumps, the call and the return with the faults of their stack,
the return behind its call, and the four skips. -/

namespace Sys2Proof.Machine

/-! ## Jumps (R120, R121, R122) -/

@[simp] theorem zext16_toNat (nnn : Addr12) : (zext16 nnn).toNat = nnn.toNat := by
  have := nnn.isLt
  rw [zext16, BitVec.toNat_ofNat]
  omega

theorem indexedTarget_toNat (s : State) (nnn : Addr12) :
    (indexedTarget s nnn).toNat = (nnn.toNat + (readV s 0).toNat) % 65536 :=
  BitVec.toNat_ofNat _ _

theorem framePc_setPc (s : State) (w : Word) : FramePc s (setPc s w) := ⟨rfl, fun _ => rfl⟩

/-- Settles O15: each jump writes its target by `setPc`, which has the frame. -/
theorem jumpsWritePc : Obligations.JumpsWritePc := fun nnn s =>
  ⟨⟨_, rfl, zext16_toNat nnn, rfl, framePc_setPc s _⟩,
    ⟨_, rfl, zext16_toNat nnn, rfl, framePc_setPc s _⟩,
    ⟨_, rfl, indexedTarget_toNat s nnn, rfl, framePc_setPc s _⟩⟩

/-! ## CALL and RET (R123, R124) -/

section CallReturn

variable {s t : State}

/-- A jump after an operation that wrote the stack and SP alone. -/
theorem framePcStack_setPc (h : t = { s with stack := t.stack, sp := t.sp }) (w : Word) :
    FramePcStack s (setPc t w) := by
  rw [h]
  exact ⟨rfl, fun _ => rfl⟩

theorem exec_call_of_push_ok {nnn : Addr12} (h : push s (s.pc + 2) = .ok t) :
    exec (.call nnn) s = .next (setPc t (zext16 nnn)) :=
  (execCall_eq s nnn).trans (by rw [h]; rfl)

theorem exec_call_of_push_error {nnn : Addr12} (h : push s (s.pc + 2) = .error t) :
    exec (.call nnn) s = .next t :=
  (execCall_eq s nnn).trans (by rw [h]; rfl)

theorem exec_ret_of_pop_ok {w : Word} (h : pop s = .ok (w, t)) : exec .ret s = .next (setPc t w) :=
  (execRet_eq s).trans (by rw [h]; rfl)

theorem exec_ret_of_pop_error (h : pop s = .error t) : exec .ret s = .next t :=
  (execRet_eq s).trans (by rw [h]; rfl)

end CallReturn

/-- Settles O16: the two cases of `push`. -/
theorem callPushesTheNextAddress : Obligations.CallPushesTheNextAddress := by
  intro nnn s
  obtain ⟨t, hpush, hlt, hsp, hstack, heq⟩ | ⟨hfull, herr⟩ := push_cases s (s.pc + 2)
  · refine ⟨fun _ => ?_, fun _ hfull => by omega⟩
    exact ⟨_, exec_call_of_push_ok hpush, zext16_toNat nnn, rfl, hsp, hstack, framePcStack_setPc heq _⟩
  · refine ⟨fun hlt => by omega, fun hs _ => ?_⟩
    rw [exec_call_of_push_error herr, raise_of_noFault s _ hs]

/-- Settles O17: the two cases of `pop`. -/
theorem returnPopsIntoPc : Obligations.ReturnPopsIntoPc := by
  intro s
  obtain ⟨t, j, hj, hj1, hpop, hsp, heq⟩ | ⟨hempty, herr⟩ := pop_cases s
  · refine ⟨fun k hk hk1 => ?_, fun _ hempty => by omega⟩
    obtain rfl : j = k := by omega
    have hstack : t.stack = s.stack := by rw [heq]
    have hframe : t = { s with stack := t.stack, sp := t.sp } := by rw [heq]
    exact ⟨_, exec_ret_of_pop_ok hpop, rfl, rfl, hsp, hstack, framePcStack_setPc hframe _⟩
  · refine ⟨fun k _ hk1 => by omega, fun hs _ => ?_⟩
    rw [exec_ret_of_pop_error herr, raise_of_noFault s _ hs]

/-- Settles O18: RET pops entry SP of the CALL, which is where the CALL wrote. -/
theorem returnGoesBehindItsCall : Obligations.ReturnGoesBehindItsCall := by
  intro nnn s hlt
  obtain ⟨t, hcall, -, -, hsp, hstack, -⟩ := (callPushesTheNextAddress nnn s).1 hlt
  refine ⟨t, hcall, fun t' hstack' hsp' => ?_⟩
  have hdepth : t'.sp.val = s.sp.val + 1 := by rw [hsp', hsp]
  obtain ⟨u, hret, hpc, -, husp, -⟩ := (returnPopsIntoPc t').1 s.sp.val hlt hdepth
  have htop : t'.stack[s.sp.val] = s.pc + 2 := by simp only [hstack', hstack _ hlt, if_true]
  exact ⟨u, hret, hpc.trans htop, Fin.ext husp⟩

/-! ## Skips (R125-R128) -/

section Skips

variable (s : State) (p : Prop) [Decidable p]

theorem skipIf_decide :
    skipIf (decide p) s = if p then { s with pc := s.pc + 4, pcSet := true } else s := by
  by_cases h : p
  · rw [decide_eq_true h, if_pos h]; rfl
  · rw [decide_eq_false h, if_neg h]; rfl

theorem skipIf_decide_not :
    skipIf (decide ¬p) s = if p then s else { s with pc := s.pc + 4, pcSet := true } := by
  rw [skipIf_decide, ite_not]

end Skips

/-- Settles O19: each skip is `skipIf` on its condition. -/
theorem skipsOnTheirCondition : Obligations.SkipsOnTheirCondition := fun _ _ _ s =>
  ⟨congrArg Host.Outcome.next (skipIf_decide s _), congrArg Host.Outcome.next (skipIf_decide_not s _),
    congrArg Host.Outcome.next (skipIf_decide s _), congrArg Host.Outcome.next (skipIf_decide_not s _)⟩

end Sys2Proof.Machine
end

section
/-! PROOFS of the family 41_load_move: the writes of `V[x]` and of `I` with their frames, and the three
instructions that are such a write. -/

namespace Sys2Proof.Machine

/-! ## Writes of one register (R21, R23) -/

section Writes

variable (s : State)

theorem frameV_writeV (x : Reg) (b : Byte) : FrameV s (writeV s x b) := ⟨rfl, fun _ => rfl⟩

theorem frameI_writeI (w : Word) : FrameI s (writeI s w) := ⟨rfl, fun _ => rfl⟩

theorem readV_writeV_self (x : Reg) (b : Byte) : readV (writeV s x b) x = b := by
  rw [readV_writeV, if_pos rfl]

theorem readV_writeV_of_ne {x r : Reg} (h : r ≠ x) (b : Byte) : readV (writeV s x b) r = readV s r := by
  rw [readV_writeV, if_neg h.symm]

/-- An execution that is one write of `V[x]` changes `V[x]` alone. -/
theorem writes_V_alone_of_exec {ins : Instr} {x : Reg} {b : Byte} (h : exec ins s = .next (writeV s x b)) :
    ∃ t, exec ins s = .next t ∧ readV t x = b ∧ (∀ r, r ≠ x → readV t r = readV s r) ∧ FrameV s t :=
  ⟨_, h, readV_writeV_self s x b, fun _ hr => readV_writeV_of_ne s hr b, frameV_writeV s x b⟩

end Writes

/-! ## The loads and the move (R150-R152) -/

section Loads

variable (s : State)

theorem exec_ldImm (x : Reg) (kk : Byte) : exec (.ldImm x kk) s = .next (writeV s x kk) := rfl

theorem exec_ldReg (x y : Reg) : exec (.ldReg x y) s = .next (writeV s x (readV s y)) := rfl

theorem exec_ldI (nnn : Addr12) : exec (.ldI nnn) s = .next (writeI s (zext16 nnn)) := rfl

end Loads

/-- Settles O20: each instruction is one write, of `V[x]` or of `I`, and each encoding one leaf of the
decoder. -/
theorem loadsAndMoves : Obligations.LoadsAndMoves := by
  refine ⟨encoded_ldImm, encoded_ldReg, encoded_ldI, fun x y kk nnn s => ⟨?_, ?_, ?_⟩⟩
  · exact writes_V_alone_of_exec s (exec_ldImm s x kk)
  · exact writes_V_alone_of_exec s (exec_ldReg s x y)
  · exact ⟨_, exec_ldI s nnn, zext16_toNat nnn, frameI_writeI s _⟩

end Sys2Proof.Machine
end

section
/-! PROOFS of the family 42_arithmetic: the write of a result with its flag, what the narrowed results and
the flags are as numbers, and each instruction as one write. -/

namespace Sys2Proof.Machine

/-! ## A result with its flag (R22) -/

theorem frameV_writeWithFlag (s : State) (x : Reg) (result flag : Byte) :
    FrameV s (writeWithFlag s x result flag) :=
  ⟨writeWithFlag_eq s x result flag, fun _ => rfl⟩

/-- An execution that is one write of a result with its flag changes `V[x]` and VF alone, and the flag wins
when `x = 15`. -/
theorem writes_V_and_flag_alone_of_exec {s : State} {ins : Instr} {x : Reg} {result flag : Byte}
    (h : exec ins s = .next (writeWithFlag s x result flag)) :
    ∃ t, exec ins s = .next t ∧ readV t 15 = flag ∧ (x ≠ 15 → readV t x = result) ∧
      (∀ r, r ≠ x → r ≠ 15 → readV t r = readV s r) ∧ FrameV s t := by
  have hread (r : Reg) : readV (writeWithFlag s x result flag) r
      = if r = 15 then flag else if r = x then result else readV s r :=
    readV_writeWithFlag s x r result flag
  refine ⟨_, h, ?_, fun hx => ?_, fun r hrx hr => ?_, frameV_writeWithFlag s x result flag⟩
  · rw [hread, if_pos rfl]
  · rw [hread, if_neg hx, if_pos rfl]
  · rw [hread, if_neg hr, if_neg hrx]

/-! ## Flags and narrowed results as numbers (R9, R160) -/

section Numbers

theorem flagByte_decide (p : Prop) [Decidable p] : flagByte (decide p) = if p then 1 else 0 := by
  simp only [flagByte, decide_eq_true_eq]

variable (a b : Byte)

theorem carryFlag_eq : carryFlag a b = if 255 < a.toNat + b.toNat then 1 else 0 := flagByte_decide _

theorem noBorrowFlag_eq : noBorrowFlag a b = if b.toNat ≤ a.toNat then 1 else 0 := flagByte_decide _

theorem narrowedDifference_toNat :
    (BitVec.ofInt 8 ((a.toNat : Int) - b.toNat)).toNat = (a.toNat + 256 - b.toNat) % 256 := by
  have := b.isLt
  rw [BitVec.toNat_ofInt]
  omega

theorem shiftedOutRight_toNat : (shiftedOutRight a).toNat = a.toNat % 2 := by
  rw [shiftedOutRight, BitVec.toNat_ofNat]
  omega

theorem shiftedOutLeft_toNat : (shiftedOutLeft a).toNat = a.toNat / 128 := by
  have := a.isLt
  rw [shiftedOutLeft, BitVec.toNat_ofNat]
  omega

theorem narrowedHalf_toNat : (BitVec.ofNat 8 (a.toNat / 2)).toNat = a.toNat / 2 := by
  have := a.isLt
  rw [BitVec.toNat_ofNat]
  omega

/-- The address of a glyph does not wrap (R193). -/
theorem glyphAddress_toNat : (glyphAddress a).toNat = a.toNat * 5 := by
  have := a.isLt
  rw [glyphAddress, glyphBytes, BitVec.toNat_ofNat]
  omega

end Numbers

/-! ## Each instruction as one write (R161-R171, R193) -/

section Executions

variable (s : State) (x y : Reg) (kk : Byte)

theorem exec_addImm :
    exec (.addImm x kk) s = .next (writeV s x (BitVec.ofNat 8 ((readV s x).toNat + kk.toNat))) := rfl

theorem exec_addReg :
    exec (.addReg x y) s
      = .next (writeWithFlag s x (BitVec.ofNat 8 ((readV s x).toNat + (readV s y).toNat))
          (carryFlag (readV s x) (readV s y))) := rfl

theorem exec_sub :
    exec (.sub x y) s
      = .next (writeWithFlag s x (BitVec.ofInt 8 (((readV s x).toNat : Int) - (readV s y).toNat))
          (noBorrowFlag (readV s x) (readV s y))) := rfl

theorem exec_subn :
    exec (.subn x y) s
      = .next (writeWithFlag s x (BitVec.ofInt 8 (((readV s y).toNat : Int) - (readV s x).toNat))
          (noBorrowFlag (readV s y) (readV s x))) := rfl

theorem exec_andReg : exec (.andReg x y) s = .next (writeV s x (readV s x &&& readV s y)) := rfl

theorem exec_orReg : exec (.orReg x y) s = .next (writeV s x (readV s x ||| readV s y)) := rfl

theorem exec_xorReg : exec (.xorReg x y) s = .next (writeV s x (readV s x ^^^ readV s y)) := rfl

theorem exec_addI :
    exec (.addI x) s = .next (writeI s (BitVec.ofNat 16 (s.i.toNat + (readV s x).toNat))) := rfl

theorem exec_ldFont : exec (.ldFont x) s = .next (writeI s (glyphAddress (readV s x))) := rfl

theorem exec_shr :
    exec (.shr x y) s
      = .next (writeWithFlag s x (BitVec.ofNat 8 ((shiftSource s x y).toNat / 2))
          (shiftedOutRight (shiftSource s x y))) := rfl

theorem exec_shl :
    exec (.shl x y) s
      = .next (writeWithFlag s x (BitVec.ofNat 8 ((shiftSource s x y).toNat * 2))
          (shiftedOutLeft (shiftSource s x y))) := rfl

theorem exec_rnd :
    exec (.rnd x kk) s
      = .next (writeV (drawRandom s).2 x (Config.randomByte s.draws &&& kk)) := rfl

end Executions

/-! ## The obligations -/

/-- Settles O21: one write of `V[x]`. -/
theorem addImmediateSetsNoFlag : Obligations.AddImmediateSetsNoFlag := by
  refine ⟨encoded_addImm, fun x kk s => ?_⟩
  obtain ⟨t, h, hx, hrest⟩ := writes_V_alone_of_exec s (exec_addImm s x kk)
  exact ⟨t, h, by rw [hx, BitVec.toNat_ofNat], hrest⟩

/-- Settles O22: one write of the sum with its carry. -/
theorem addSetsCarry : Obligations.AddSetsCarry := by
  refine ⟨encoded_addReg, fun x y s => ?_⟩
  obtain ⟨t, h, hflag, hx, hrest⟩ := writes_V_and_flag_alone_of_exec (exec_addReg s x y)
  exact ⟨t, h, hflag.trans (carryFlag_eq _ _), fun hne => by rw [hx hne, BitVec.toNat_ofNat], hrest⟩

/-- Settles O23: each is one write of its difference with no-borrow, the operands exchanged for SUBN. -/
theorem subtractsSetNoBorrow : Obligations.SubtractsSetNoBorrow := by
  refine ⟨encoded_sub, encoded_subn, fun x y s => ⟨?_, ?_⟩⟩
  · obtain ⟨t, h, hflag, hx, hrest⟩ := writes_V_and_flag_alone_of_exec (exec_sub s x y)
    exact ⟨t, h, hflag.trans (noBorrowFlag_eq _ _),
      fun hne => by rw [hx hne, narrowedDifference_toNat], hrest⟩
  · obtain ⟨t, h, hflag, hx, hrest⟩ := writes_V_and_flag_alone_of_exec (exec_subn s x y)
    exact ⟨t, h, hflag.trans (noBorrowFlag_eq _ _),
      fun hne => by rw [hx hne, narrowedDifference_toNat], hrest⟩

/-- Settles O24: each is one write of `V[x]`, read bit by bit. -/
theorem logicSetsNoFlag : Obligations.LogicSetsNoFlag := by
  refine ⟨encoded_andReg, encoded_orReg, encoded_xorReg, fun x y s => ⟨?_, ?_, ?_⟩⟩
  · obtain ⟨t, h, hx, hrest⟩ := writes_V_alone_of_exec s (exec_andReg s x y)
    exact ⟨t, h, fun _ => by rw [hx, BitVec.getLsbD_and], hrest⟩
  · obtain ⟨t, h, hx, hrest⟩ := writes_V_alone_of_exec s (exec_orReg s x y)
    exact ⟨t, h, fun _ => by rw [hx, BitVec.getLsbD_or], hrest⟩
  · obtain ⟨t, h, hx, hrest⟩ := writes_V_alone_of_exec s (exec_xorReg s x y)
    exact ⟨t, h, fun _ => by rw [hx, BitVec.getLsbD_xor], hrest⟩

/-- Settles O25: each is one write of `I`. -/
theorem indexArithmetic : Obligations.IndexArithmetic := by
  refine ⟨encoded_addI, encoded_ldFont, fun x s => ⟨?_, ?_⟩⟩
  · exact ⟨_, exec_addI s x, BitVec.toNat_ofNat _ _, frameI_writeI s _⟩
  · exact ⟨_, exec_ldFont s x, glyphAddress_toNat _, frameI_writeI s _⟩

/-- Settles O26: each is one write of the shifted source with the bit shifted out, and the source is the
`shiftSource` of the model. -/
theorem shiftsFromTheQuirkSource : Obligations.ShiftsFromTheQuirkSource := by
  refine ⟨encoded_shr, encoded_shl, fun x y s source hsource => ?_⟩
  obtain rfl : source = shiftSource s x y := hsource
  constructor
  · obtain ⟨t, h, hflag, hx, hrest⟩ := writes_V_and_flag_alone_of_exec (exec_shr s x y)
    exact ⟨t, h, by rw [hflag, shiftedOutRight_toNat],
      fun hne => by rw [hx hne, narrowedHalf_toNat], hrest⟩
  · obtain ⟨t, h, hflag, hx, hrest⟩ := writes_V_and_flag_alone_of_exec (exec_shl s x y)
    exact ⟨t, h, by rw [hflag, shiftedOutLeft_toNat],
      fun hne => by rw [hx hne, BitVec.toNat_ofNat], hrest⟩

/-- Settles O27: one write of `V[x]` after the draw, which changes the counter alone. -/
theorem randomIsAMaskedFreshDraw : Obligations.RandomIsAMaskedFreshDraw := fun x kk s =>
  ⟨_, exec_rnd s x kk, readV_writeV_self _ x _, rfl,
    fun _ hr => readV_writeV_of_ne (drawRandom s).2 hr _, rfl, fun _ => rfl⟩

end Sys2Proof.Machine
end

section
/-! PROOFS of the family 43_memory_transfer: the end of a block transfer, the fault at the first address
outside memory, the digits of BCD, and the block store, the block load and their round trip. -/

namespace Sys2Proof.Machine

/-! ## The end of a block transfer (R31) -/

section BlockEnd

variable (s : State) (x : Reg)

theorem advanceI_eq : advanceI s x = { s with i := (advanceI s x).i } := by
  unfold advanceI
  split <;> rfl

@[simp] theorem readV_advanceI (k : Reg) : readV (advanceI s x) k = readV s k := by rw [advanceI_eq]; rfl

@[simp] theorem byteAt_advanceI (a : Nat) : byteAt (advanceI s x) a = byteAt s a := by
  rw [byteAt, advanceI_mem, byteAt]

/-- `I` moves behind the block under quirk (a) alone. -/
theorem advanceI_i_toNat :
    (advanceI s x).i.toNat
      = if s.qIncI = true then (s.i.toNat + x.val + 1) % 65536 else s.i.toNat := by
  unfold advanceI
  split
  · exact BitVec.toNat_ofNat _ _
  · rfl

end BlockEnd

/-! ## The first address outside memory (R263, R264) -/

/-- An execution that ends by raising an address fault records it and leaves PC. -/
theorem records_address_fault_of_exec {ins : Instr} {s u : State} {a : Nat} (hpc : writesPc ins = false)
    (h : exec ins s = .next (raise u (.memOutOfRange a))) (hu : NoFault u) :
    ∃ t, exec ins s = .next t ∧ t.fault = some (.memOutOfRange a) ∧ t.pc = s.pc :=
  ⟨_, h, by rw [raise_fault, hu]; rfl, ((exec_listedWrites h).pc hpc).1⟩

/-- The registers of a block stand in rising order: those below one of them stand before it. -/
theorem mem_before_of_regsUpTo_split {x j k : Reg} {pre post : List Reg} (h : regsUpTo x = pre ++ k :: post)
    (hjk : j < k) : j ∈ pre := by
  have hkx : k ≤ x := (mem_regsUpTo x k).1 (by simp [h])
  have hj : j ∈ pre ++ k :: post := h ▸ (mem_regsUpTo x j).2 (hjk.le.trans hkx)
  have hsorted : (pre ++ k :: post).Pairwise (· < ·) := h ▸ List.Pairwise.filter _ (by decide)
  have hpost : ∀ i ∈ post, k < i := (List.pairwise_cons.1 (List.pairwise_append.1 hsorted).2.1).1
  rcases List.mem_append.1 hj with hpre | hrest
  · exact hpre
  · rcases List.mem_cons.1 hrest with rfl | hafter
    · exact absurd hjk (lt_irrefl _)
    · exact absurd hjk (hpost j hafter).asymm

/-- The first register of a block whose address is outside memory has the larger of the block's first
address and 0x1000. -/
theorem regsUpTo_split_at_first_out (base : Nat) {x : Reg} (hout : 0xFFF < base + x.val) :
    ∃ pre k post, regsUpTo x = pre ++ k :: post ∧ (∀ j ∈ pre, base + j.val ≤ 0xFFF) ∧
      0xFFF < base + k.val ∧ base + k.val = max base 0x1000 := by
  obtain ⟨pre, k, post, hsplit, hpre, hk⟩ :=
    split_first_out base (regsUpTo x) ⟨x, (mem_regsUpTo x x).2 le_rfl, hout⟩
  refine ⟨pre, k, post, hsplit, hpre, hk, ?_⟩
  rcases Nat.eq_zero_or_pos k.val with hzero | hpos
  · omega
  · have hprev : base + (k.val - 1) ≤ 0xFFF :=
      hpre ⟨k.val - 1, by omega⟩
        (mem_before_of_regsUpTo_split hsplit (Fin.lt_def.2 (Nat.sub_one_lt_of_lt hpos)))
    omega

/-! ## BCD (R190) -/

section Digits

variable (b : Byte)

theorem bcdHundreds_toNat : (bcdHundreds b).toNat = b.toNat / 100 := by
  have := b.isLt
  rw [bcdHundreds, BitVec.toNat_ofNat]
  omega

theorem bcdTens_toNat : (bcdTens b).toNat = b.toNat / 10 % 10 := by
  rw [bcdTens, BitVec.toNat_ofNat]
  omega

theorem bcdOnes_toNat : (bcdOnes b).toNat = b.toNat % 10 := by
  rw [bcdOnes, BitVec.toNat_ofNat]
  omega

end Digits

/-- Bytes written inside memory stand one after another, and nothing else changes. -/
theorem writeBytes_ok :
    ∀ (bs : List Byte) (a : Nat) (s : State), MemoryOk s → a + bs.length ≤ 0x1000 →
      ∃ t, writeBytes s a bs = .ok t ∧ t = { s with mem := t.mem } ∧
        (∀ k (hk : k < bs.length), byteAt t (a + k) = bs[k]) ∧
        (∀ j, j < a ∨ a + bs.length ≤ j → byteAt t j = byteAt s j)
  | [], _, s, _, _ => ⟨s, rfl, rfl, fun k hk => absurd hk (Nat.not_lt_zero k), fun _ _ => rfl⟩
  | b :: bs, a, s, hm, hr => by
    rw [List.length_cons] at hr
    have ha : a ≤ 0xFFF := by omega
    have hw : memWrite s a b = .ok { s with mem := s.mem.write a b } := by rw [memWrite_eq, if_pos ha]
    have hwrite := fun j => byteAt_memWrite (j := j) s hm hw
    obtain ⟨t, hrun, hframe, hbytes, hrest⟩ := writeBytes_ok bs (a + 1)
      { s with mem := s.mem.write a b } (Memory.wf_write ha hm) (by omega)
    refine ⟨t, by simp only [writeBytes, hw, hrun], hframe, fun k hk => ?_, fun j hj => ?_⟩
    · cases k with
      | zero => exact (hrest a (.inl a.lt_succ_self)).trans ((hwrite a).trans (if_pos rfl))
      | succ k =>
        rw [← Nat.succ_add_eq_add_succ]
        exact hbytes k (Nat.lt_of_succ_lt_succ hk)
    · rw [List.length_cons] at hj
      rw [hrest j (by omega), hwrite, if_neg (by omega)]

/-- Bytes that do not all fit below 0x1000 end in the fault of the first address that is outside. -/
theorem writeBytes_error :
    ∀ (bs : List Byte) (a k : Nat) (s : State), k < bs.length → 0xFFF < a + k →
      ∃ u, writeBytes s a bs = .error (raise u (.memOutOfRange (max a 0x1000))) ∧
        u = { s with mem := u.mem }
  | [], _, k, _, hk, _ => absurd hk (Nat.not_lt_zero k)
  | b :: bs, a, k, s, hk, hout => by
    by_cases ha : a ≤ 0xFFF
    · rw [List.length_cons] at hk
      obtain ⟨u, hrun, hframe⟩ := writeBytes_error bs (a + 1) (k - 1)
        { s with mem := s.mem.write a b } (by omega) (by omega)
      have hmax : max a 0x1000 = max (a + 1) 0x1000 := by omega
      exact ⟨u, by simp only [writeBytes, memWrite_eq, if_pos ha, hrun, hmax], hframe⟩
    · have hmax : max a 0x1000 = a := by omega
      exact ⟨s, by simp only [writeBytes, memWrite_eq, if_neg ha, hmax], rfl⟩

/-- The bytes that BCD writes: hundreds, tens, ones. -/
def bcdDigits (b : Byte) : List Byte := [bcdHundreds b, bcdTens b, bcdOnes b]

@[simp] theorem bcdDigits_length (b : Byte) : (bcdDigits b).length = 3 := rfl

theorem exec_bcd (x : Reg) (s : State) :
    exec (.bcd x) s = settle (writeBytes s (dataAddress s 0) (bcdDigits (readV s x))) := rfl

/-- Settles O28: the three digits as bytes written from `I` on, or the first of them outside memory. -/
theorem bcdStoresDecimalDigits : Obligations.BcdStoresDecimalDigits := by
  intro x s hm
  constructor
  · intro hin
    obtain ⟨t, hrun, hframe, hbytes, hrest⟩ :=
      writeBytes_ok (bcdDigits (readV s x)) (dataAddress s 0) s hm (Nat.succ_le_succ hin)
    refine ⟨t, by rw [exec_bcd, hrun]; rfl, ?_, ?_, ?_, hrest, hframe⟩
    · exact (congrArg BitVec.toNat (hbytes 0 (by simp))).trans (bcdHundreds_toNat _)
    · exact (congrArg BitVec.toNat (hbytes 1 (by simp))).trans (bcdTens_toNat _)
    · exact (congrArg BitVec.toNat (hbytes 2 (by simp))).trans (bcdOnes_toNat _)
  · intro hs hout
    obtain ⟨u, hrun, hframe⟩ :=
      writeBytes_error (bcdDigits (readV s x)) (dataAddress s 0) 2 s (by simp) hout
    exact records_address_fault_of_exec rfl (by rw [exec_bcd, hrun]; rfl)
      ((congrArg State.fault hframe).trans hs)

/-! ## Block store and block load (R191, R192) -/

section BlockTransfers

variable {x : Reg} {s t : State}

theorem exec_storeRegs_of_ok (h : storeList (dataAddress s 0) (regsUpTo x) s = .ok t) :
    exec (.storeRegs x) s = .next (advanceI t x) :=
  (execStoreRegs_eq x s).trans (by rw [h]; rfl)

theorem exec_storeRegs_of_error (h : storeList (dataAddress s 0) (regsUpTo x) s = .error t) :
    exec (.storeRegs x) s = .next t :=
  (execStoreRegs_eq x s).trans (by rw [h]; rfl)

theorem exec_loadRegs_of_ok (h : loadList (dataAddress s 0) (regsUpTo x) s = .ok t) :
    exec (.loadRegs x) s = .next (advanceI t x) :=
  (execLoadRegs_eq x s).trans (by rw [h]; rfl)

theorem exec_loadRegs_of_error (h : loadList (dataAddress s 0) (regsUpTo x) s = .error t) :
    exec (.loadRegs x) s = .next t :=
  (execLoadRegs_eq x s).trans (by rw [h]; rfl)

/-- A block whose last byte is inside memory is inside memory. -/
theorem block_inside (hin : dataAddress s x.val ≤ 0xFFF) :
    ∀ k ∈ regsUpTo x, dataAddress s 0 + k.val ≤ 0xFFF := fun k hk =>
  (Nat.add_le_add_left (Fin.le_def.1 ((mem_regsUpTo x k).1 hk)) _).trans hin

/-- An address before or behind a block is that of none of its registers. -/
theorem outside_block {a : Nat} (ha : a < dataAddress s 0 ∨ dataAddress s x.val < a) :
    ∀ k ∈ regsUpTo x, a ≠ dataAddress s 0 + k.val := by
  intro k hk
  have hkx : k.val ≤ x.val := (mem_regsUpTo x k).1 hk
  unfold dataAddress at ha ⊢
  omega

end BlockTransfers

/-- Settles O29: the stores of a block inside memory, or the first of them outside. -/
theorem blockStoreWritesRegisters : Obligations.BlockStoreWritesRegisters := by
  intro x s hm
  constructor
  · intro hin
    obtain ⟨t, hrun, hframe, -, hbytes, hrest⟩ :=
      storeList_ok (dataAddress s 0) (regsUpTo x) s hm (block_inside hin)
    refine ⟨_, exec_storeRegs_of_ok hrun, fun k hk => ?_, fun a ha => ?_, ?_, ?_⟩
    · exact (byteAt_advanceI t x _).trans (hbytes k ((mem_regsUpTo x k).2 hk))
    · exact (byteAt_advanceI t x a).trans (hrest a (outside_block ha))
    · rw [advanceI_i_toNat, hframe]
    · rw [advanceI_eq, hframe]
  · intro hs hout
    obtain ⟨pre, k, post, hsplit, hpre, hk, haddr⟩ :=
      regsUpTo_split_at_first_out (dataAddress s 0) hout
    obtain ⟨u, hrun, hframe⟩ := storeList_error (dataAddress s 0) k post hk pre s hpre
    rw [← hsplit, haddr] at hrun
    exact records_address_fault_of_exec rfl (exec_storeRegs_of_error hrun)
      ((congrArg State.fault hframe).trans hs)

/-- Settles O30: the loads of a block inside memory, or the first of them outside. -/
theorem blockLoadReadsRegisters : Obligations.BlockLoadReadsRegisters := by
  intro x s
  constructor
  · intro hin
    obtain ⟨t, hrun, hframe, hregs, hrest⟩ :=
      loadList_ok (dataAddress s 0) (regsUpTo x) s (block_inside hin)
    refine ⟨_, exec_loadRegs_of_ok hrun, fun k hk => ?_, fun k hk => ?_, ?_, ?_, fun a => ?_⟩
    · exact (readV_advanceI t x k).trans (hregs k ((mem_regsUpTo x k).2 hk))
    · exact (readV_advanceI t x k).trans (hrest k (mt (mem_regsUpTo x k).1 (not_le.2 hk)))
    · rw [advanceI_i_toNat, hframe]
    · rw [advanceI_eq, hframe]
    · rw [byteAt_advanceI, hframe]; rfl
  · intro hs hout
    obtain ⟨pre, k, post, hsplit, hpre, hk, haddr⟩ :=
      regsUpTo_split_at_first_out (dataAddress s 0) hout
    obtain ⟨u, hrun, hframe⟩ := loadList_error (dataAddress s 0) k post hk pre s hpre
    rw [← hsplit, haddr] at hrun
    exact records_address_fault_of_exec rfl (exec_loadRegs_of_error hrun)
      ((congrArg State.fault hframe).trans hs)

/-- Settles O31: the load reads, at the same addresses, the bytes that the store wrote. -/
theorem blockStoreThenLoadRoundTrips : Obligations.BlockStoreThenLoadRoundTrips := by
  intro x s hm hin
  obtain ⟨t, hstore, hwritten, -⟩ := (blockStoreWritesRegisters x s hm).1 hin
  refine ⟨t, hstore, fun t' hmem hi => ?_⟩
  have haddr (k : Nat) : dataAddress t' k = dataAddress s k := by rw [dataAddress, hi, dataAddress]
  obtain ⟨u, hload, hloaded, -⟩ := (blockLoadReadsRegisters x t').1 ((haddr x.val).symm ▸ hin)
  refine ⟨u, hload, fun k hk => ?_⟩
  calc readV u k = byteAt t' (dataAddress t' k.val) := hloaded k hk
    _ = byteAt t (dataAddress s k.val) := by rw [haddr, byteAt, hmem, byteAt]
    _ = readV s k := hwritten k hk

end Sys2Proof.Machine
end

section
/-! PROOFS of the family 44_timers: the moves between a register and a timer, each as one write of its
destination with its frame. -/

namespace Sys2Proof.Machine

/-! ## Writes of one timer (R29, R30) -/

section TimerWrites

variable (s : State)

theorem frameDt_with_dt (b : Byte) : FrameDt s { s with dt := b } := ⟨rfl, fun _ => rfl⟩

theorem frameSt_with_st (b : Byte) : FrameSt s { s with st := b } := ⟨rfl, fun _ => rfl⟩

end TimerWrites

/-! ## Each instruction as one write (R210, R211, R212) -/

section TimerMoves

variable (s : State) (x : Reg)

theorem exec_readDt : exec (.readDt x) s = .next (writeV s x s.dt) := rfl

theorem exec_writeDt : exec (.writeDt x) s = .next { s with dt := readV s x } := rfl

theorem exec_writeSt : exec (.writeSt x) s = .next { s with st := readV s x } := rfl

end TimerMoves

/-- Settles O32: each is one write, of `V[x]`, of DT or of ST. -/
theorem timerInstructions : Obligations.TimerInstructions := by
  refine fun x s => ⟨?_, ?_, ?_⟩
  · exact writes_V_alone_of_exec s (exec_readDt s x)
  · exact ⟨_, exec_writeDt s x, rfl, frameDt_with_dt s _⟩
  · exact ⟨_, exec_writeSt s x, rfl, frameSt_with_st s _⟩

end Sys2Proof.Machine
end

section
/-! PROOFS of the family 45_keyboard: the two skips by what the key code is, and the wait with the delivery
that ends it. -/

namespace Sys2Proof.Machine

/-! ## The key skips (R220, R221) -/

section KeySkips

variable {s t : State} {x : Reg} {k : Fin 16}

theorem keyCode_of_val_eq (h : k.val = (readV s x).toNat) : keyCode s x = .ok k := by
  obtain ⟨j, hj, hval⟩ | ⟨hout, -⟩ := keyCode_cases s x
  · rw [hj, Fin.ext (hval.trans h.symm)]
  · omega

theorem keyCode_of_out_of_range (hs : NoFault s) (h : 15 < (readV s x).toNat) :
    keyCode s x = .error { s with fault := some (.keyIndexOutOfRange (readV s x)) } := by
  obtain ⟨j, -, hval⟩ | ⟨-, herr⟩ := keyCode_cases s x
  · omega
  · rw [herr, raise_of_noFault s _ hs]

theorem exec_skp_of_keyCode_ok (h : keyCode s x = .ok k) :
    exec (.skp x) s = .next (skipIf (decide (s.keysDown[k] = true)) s) :=
  (execSkp_eq x s).trans (by rw [h, Bool.decide_eq_true]; rfl)

theorem exec_sknp_of_keyCode_ok (h : keyCode s x = .ok k) :
    exec (.sknp x) s = .next (skipIf (decide ¬s.keysDown[k] = true) s) :=
  (execSknp_eq x s).trans (by rw [h, decide_not, Bool.decide_eq_true]; rfl)

theorem exec_skp_of_keyCode_error (h : keyCode s x = .error t) : exec (.skp x) s = .next t :=
  (execSkp_eq x s).trans (by rw [h]; rfl)

theorem exec_sknp_of_keyCode_error (h : keyCode s x = .error t) : exec (.sknp x) s = .next t :=
  (execSknp_eq x s).trans (by rw [h]; rfl)

end KeySkips

/-- Settles O34: the two cases of the key code; inside the range each skip is `skipIf` on the key. -/
theorem keySkips : Obligations.KeySkips := by
  refine fun x s => ⟨fun k hk => ?_, fun hs hout => ?_⟩
  · have hcode : keyCode s x = .ok k := keyCode_of_val_eq hk
    exact ⟨(exec_skp_of_keyCode_ok hcode).trans (congrArg Host.Outcome.next (skipIf_decide s _)),
      (exec_sknp_of_keyCode_ok hcode).trans (congrArg Host.Outcome.next (skipIf_decide_not s _))⟩
  · have hcode := keyCode_of_out_of_range hs hout
    exact ⟨exec_skp_of_keyCode_error hcode, exec_sknp_of_keyCode_error hcode⟩

/-! ## The wait for a key and its delivery (R222, R272) -/

section KeyWait

variable {s : State} {x : Reg}

theorem exec_waitKey (x : Reg) (s : State) : exec (.waitKey x) s = .next { s with keyWait := some x } := rfl

theorem frameKeyWait_with_keyWait (s : State) (w : Option Reg) : FrameKeyWait s { s with keyWait := w } :=
  ⟨rfl, fun _ => rfl⟩

/-- A core that waits for a key does not execute (R273). -/
theorem executes_of_wait (h : s.keyWait = some x) : executes s = false := by simp [executes, h]

/-- A waiting core that is neither faulted nor halted takes the delivered key (R272). -/
theorem acceptKey_of_wait (hs : NoFault s) (hrun : s.halted = false) (hwait : s.keyWait = some x)
    (k : Fin 16) : acceptKey k s = { writeV s x (BitVec.ofNat 8 k.val) with keyWait := none } := by
  simp [acceptKey, hs, hrun, hwait]

end KeyWait

/-- A key code fits a byte. -/
theorem keyByte_toNat (k : Fin 16) : (BitVec.ofNat 8 k.val).toNat = k.val :=
  (BitVec.toNat_ofNat _ _).trans (Nat.mod_eq_of_lt (by omega))

/-- Settles O35: the wait is one write of `keyWait`; the delivery is one write of `V[x]` that clears it. -/
theorem waitForKey : Obligations.WaitForKey := by
  refine fun x s => ⟨_, exec_waitKey x s, rfl, frameKeyWait_with_keyWait s _, executes_of_wait rfl,
    fun t k hwait hs hrun => ?_⟩
  rw [acceptKey_of_wait hs hrun hwait]
  refine ⟨?_, fun r hr => readV_writeV_of_ne t hr _, rfl, ?_⟩
  · exact (congrArg BitVec.toNat (readV_writeV_self t x _)).trans (keyByte_toNat k)
  · exact executes_iff.mpr ⟨hs, mode_eq_running.mpr ⟨hrun, rfl⟩⟩

end Sys2Proof.Machine
end

section
/-! PROOFS of the family 46_display: the display port and CLS, DRW against its pseudocode, what DRW changes
and where it faults, and the pixels that it toggles. -/

namespace Sys2Proof.Machine

/-! ## The display port and CLS (R237, R278) -/

@[simp] theorem pixel_blank (px py : Nat) : Bitmap.pixel Bitmap.blank px py = false := by
  unfold Bitmap.pixel Bitmap.blank
  split <;> simp

theorem frameBitmap_with_bitmap (s : State) (bm : Bitmap) : FrameBitmap s { s with bitmap := bm } :=
  ⟨rfl, fun _ => rfl⟩

theorem exec_cls (s : State) : exec .cls s = .next (clearDisplay s) := rfl

theorem setPixel_offField (off : Bitmap → Nat → Nat → Bitmap × Bool) (s : State) {px py : Nat}
    (h : ¬(px < 64 ∧ py < 32)) :
    setPixel off s px py = ({ s with bitmap := (off s.bitmap px py).1 }, (off s.bitmap px py).2) :=
  dif_neg h

/-- Settles O41: CLS is one write of the bitmap, and `set_pixel` one toggle inside the field. -/
theorem displayPortAndClear : Obligations.DisplayPortAndClear := by
  refine ⟨fun w h hkk => ?_, fun s => ⟨?_, fun off px py h => ?_, fun off _ _ => setPixel_offField off s⟩⟩
  · rw [decode_family0 h, decodeFamily0_eq, if_pos hkk]
  · exact ⟨_, exec_cls s, pixel_blank, frameBitmap_with_bitmap s _⟩
  · exact ⟨_, setPixel_inField s off h, pixel_toggle s.bitmap h, frameBitmap_with_bitmap s _⟩

/-! ## DRW and its pseudocode (R235, R236)

The model reads a corner again only for register 15; the pseudocode under `live` reads both again at every
set bit. The two agree because drawing changes no other register. -/

/-- A corner of the model, `latched` of the register `q`, stands for the variable `v` of the pseudocode. -/
def CornerAgrees (m : DrawSampling) (s : State) (q : Reg) (latched v : Byte) : Prop :=
  (m ≠ .live → v = latched) ∧ (q ≠ flagReg → readV s q = latched)

section Corner

variable {m : DrawSampling} {s t : State} {q : Reg} {latched v : Byte}

/-- What the model reads at a set bit is what the pseudocode reads there. -/
theorem CornerAgrees.cornerAt_eq (h : CornerAgrees m s q latched v) :
    cornerAt m s q latched = if m = .live then readV s q else v := by
  obtain ⟨hvar, hreg⟩ := h
  unfold cornerAt
  by_cases hm : m = .live
  · by_cases hq : q = flagReg
    · rw [if_pos ⟨hq, hm⟩, if_pos hm]
    · rw [if_neg (fun hc => hq hc.1), if_pos hm, hreg hq]
  · rw [if_neg (fun hc => hm hc.2), if_neg hm, hvar hm]

/-- Drawing a set bit, for which the pseudocode may read the variable again, keeps the agreement. -/
theorem CornerAgrees.after_draw (h : CornerAgrees m s q latched v) (hdraw : DrawFrame s t) :
    CornerAgrees m t q latched (if m = .live then readV s q else v) := by
  obtain ⟨hvar, hreg⟩ := h
  obtain ⟨-, hkept, -⟩ := hdraw
  refine ⟨fun hm => ?_, fun hq => (hkept q hq).trans (hreg hq)⟩
  rw [if_neg hm, hvar hm]

/-- A corner latched from a state whose other registers are still those of `s` agrees with it. -/
theorem CornerAgrees.latch (s : State) (b : Byte) :
    CornerAgrees m (writeV s flagReg b) q (readV s q) (readV s q) :=
  ⟨fun _ => rfl, fun hq => readV_writeV_of_ne s hq b⟩

end Corner

/-- The variables `(x0, y0)` and the state of the pseudocode stand for a state of the model. -/
def PseudoAgrees (d : DrawArgs) (s : State) (a : Byte × Byte × State) : Prop :=
  CornerAgrees d.sampling s d.x d.x0 a.1 ∧ CornerAgrees d.sampling s d.y d.y0 a.2.1 ∧ a.2.2 = s

/-- The columns of one row, as the model and as the pseudocode draw them. -/
theorem pseudoColumns_agrees (d : DrawArgs) (r : Nat) (b : Byte) :
    ∀ (cs : List Nat) (s : State) (a : Byte × Byte × State), PseudoAgrees d s a →
      PseudoAgrees d (drawRow d r b cs s) (pseudoColumns d.off d.sampling d.x d.y r b cs a)
  | [], _, _, h => h
  | c :: cs, s, (x0, y0, _), ⟨hx, hy, rfl⟩ => by
    rw [pseudoColumns, drawRow]
    by_cases hbit : b.getLsbD (7 - c)
    · rw [if_pos hbit, if_pos hbit]
      refine pseudoColumns_agrees d r b cs _ _ ⟨hx.after_draw ?_, hy.after_draw ?_, ?_⟩
      · exact drawBit_frame _ d r c
      · exact drawBit_frame _ d r c
      · rw [drawBit, hx.cornerAt_eq, hy.cornerAt_eq]
        rfl
    · rw [if_neg hbit, if_neg hbit]
      exact pseudoColumns_agrees d r b cs _ _ ⟨hx, hy, rfl⟩

/-- The rows of a sprite, as the model and as the pseudocode draw them. -/
theorem drawRows_eq_pseudoRows (d : DrawArgs) :
    ∀ (n r : Nat) (s : State) (a : Byte × Byte × State), PseudoAgrees d s a →
      drawRows d n r s = pseudoRows d.off d.sampling d.x d.y n r a
  | 0, _, _, _, ⟨_, _, rfl⟩ => rfl
  | n + 1, r, s, (x0, y0, _), ⟨hx, hy, rfl⟩ => by
    rw [drawRows, pseudoRows, dataAddress]
    cases memRead s (s.i.toNat + r) with
    | error u => rfl
    | ok b => exact drawRows_eq_pseudoRows d n (r + 1) _ _ (pseudoColumns_agrees d r b _ _ _ ⟨hx, hy, rfl⟩)

/-- The model's DRW is the pseudocode's under every setting. -/
theorem drawSprite_eq_pseudoDraw (off : Bitmap → Nat → Nat → Bitmap × Bool) (m : DrawSampling)
    (x y : Reg) (n : BitVec 4) (s : State) : drawSprite off m x y n s = pseudoDraw off m x y n s :=
  drawRows_eq_pseudoRows _ _ _ _ _ ⟨.latch s 0, .latch s 0, rfl⟩

/-- Settles O37: both start from latched corners, and every row and column keeps the agreement. -/
theorem drawFollowsItsPseudocode : Obligations.DrawFollowsItsPseudocode :=
  ⟨encoded_drw, fun _ _ => rfl, drawSprite_eq_pseudoDraw,
    fun x y n s => congrArg settle (drawSprite_eq_pseudoDraw _ _ x y n s)⟩

/-! ## What DRW changes and where it faults (R236, R264) -/

section Frame

variable {s t : State} (h : DrawFrame s t)

include h

theorem DrawFrame.mem_eq : t.mem = s.mem := by rw [h.1]

theorem DrawFrame.i_eq : t.i = s.i := by rw [h.1]

theorem DrawFrame.fault_eq : t.fault = s.fault := by rw [h.1]

/-- Drawing changes no bit of the sprite. -/
theorem DrawFrame.spriteBit_eq : SpriteBit t = SpriteBit s := by
  unfold SpriteBit byteAt dataAddress
  rw [h.mem_eq, h.i_eq]

end Frame

/-- What DRW fixes before its first row. -/
def spriteArgs (x y : Reg) (s : State) : DrawArgs :=
  ⟨Config.displayOffField, Config.drawXySampling, x, y, readV s x, readV s y⟩

/-- The rows of DRW, drawn after VF is cleared. -/
def spriteRows (x y : Reg) (n : BitVec 4) (s : State) : Except State State :=
  drawRows (spriteArgs x y s) n.toNat 0 (writeV s flagReg 0)

section DrawEnds

variable {x y : Reg} {n : BitVec 4} {s t : State}

theorem exec_drw (x y : Reg) (n : BitVec 4) (s : State) :
    exec (.drw x y n) s = settle (spriteRows x y n s) := rfl

theorem exec_drw_of_ok (h : spriteRows x y n s = .ok t) : exec (.drw x y n) s = .next t := by
  rw [exec_drw, h]
  rfl

theorem exec_drw_of_error (h : spriteRows x y n s = .error t) : exec (.drw x y n) s = .next t := by
  rw [exec_drw, h]
  rfl

/-- The rows of a sprite in memory are all drawn; else the first row outside raises, at the larger of `I`
and 0x1000. -/
theorem spriteRows_cases (x y : Reg) (n : BitVec 4) (s : State) :
    ∃ t, DrawFrame (writeV s flagReg 0) t ∧
      ((SpriteInMemory s n.toNat ∧ spriteRows x y n s = .ok t) ∨
        (¬SpriteInMemory s n.toNat ∧
          spriteRows x y n s = .error (raise t (.memOutOfRange (max (dataAddress s 0) 0x1000))))) := by
  have haddr (k : Nat) : dataAddress (writeV s flagReg 0) (0 + k) = s.i.toNat + k :=
    congrArg (s.i.toNat + ·) (Nat.zero_add k)
  obtain ⟨t, hrun, hframe, hin⟩ | ⟨t, k, hrun, hframe, hk, hout, hfirst⟩ :=
    drawRows_cases (spriteArgs x y s) n.toNat 0 (writeV s flagReg 0)
  · refine ⟨t, hframe, .inl ⟨hin.imp_right fun hlast => ?_, hrun⟩⟩
    rwa [Nat.zero_add] at hlast
  · rw [haddr] at hrun hout hfirst
    refine ⟨t, hframe, .inr ⟨?_, ?_⟩⟩
    · unfold SpriteInMemory dataAddress
      omega
    · have hmax : s.i.toNat + k = max (dataAddress s 0) 0x1000 := by
        unfold dataAddress
        omega
      rw [spriteRows, hrun, hmax]

/-- Drawing from the cleared VF leaves it 0 or 1. -/
theorem flag_of_draw (h : DrawFrame (writeV s flagReg 0) t) : readV t 15 = 0 ∨ readV t 15 = 1 := by
  obtain ⟨-, -, hflag⟩ := h
  exact hflag.imp_left fun hkept => hkept.trans (readV_writeV_self s flagReg 0)

theorem readV_of_draw (h : DrawFrame (writeV s flagReg 0) t) {q : Reg} (hq : q ≠ 15) :
    readV t q = readV s q := by
  obtain ⟨-, hkept, -⟩ := h
  exact (hkept q hq).trans (readV_writeV_of_ne s hq 0)

theorem frameVBitmap_of_draw (h : DrawFrame (writeV s flagReg 0) t) : FrameVBitmap s t := by
  have hmem : t.mem = s.mem := h.mem_eq
  exact ⟨h.1, fun a => congrArg (Memory.read · a) hmem⟩

end DrawEnds

/-- Settles O38: the two ends of the rows; without rows only VF is written. -/
theorem drawCompletesInsideMemory : Obligations.DrawCompletesInsideMemory := by
  intro x y n s
  obtain ⟨t, hframe, ⟨hin, hrun⟩ | ⟨hout, hrun⟩⟩ := spriteRows_cases x y n s
  · refine ⟨fun _ => ?_, ?_, fun _ hout => absurd hin hout⟩
    · exact ⟨t, exec_drw_of_ok hrun, flag_of_draw hframe, fun r => readV_of_draw hframe,
        frameVBitmap_of_draw hframe⟩
    · rintro rfl
      exact ⟨_, exec_drw_of_ok (t := writeV s flagReg 0) rfl, readV_writeV_self s flagReg 0, rfl⟩
  · refine ⟨fun hin => absurd hin hout, ?_, fun hs _ => ?_⟩
    · rintro rfl
      exact absurd (.inl rfl) hout
    · exact records_address_fault_of_exec rfl (exec_drw_of_error hrun) (hframe.fault_eq.trans hs)

/-! ## The pixels that DRW toggles (R235, R236) -/

/-- Drawing from `s` to `t` toggled the pixels of `P` and no other, and set VF if one of them was on. -/
structure TogglesPixels (P : Nat → Nat → Prop) (s t : State) : Prop where
  drawn : ∀ {px py}, P px py → Bitmap.pixel t.bitmap px py = !Bitmap.pixel s.bitmap px py
  kept : ∀ {px py}, ¬P px py → Bitmap.pixel t.bitmap px py = Bitmap.pixel s.bitmap px py
  collides : ∀ {px py}, P px py → Bitmap.pixel s.bitmap px py = true → readV t flagReg = 1
  misses : (∀ px py, P px py → Bitmap.pixel s.bitmap px py = false) → readV t flagReg = readV s flagReg

namespace TogglesPixels

variable {P Q R : Nat → Nat → Prop} {s t u : State}

theorem of_empty (h : ∀ px py, ¬P px py) : TogglesPixels P s s where
  drawn hp := absurd hp (h _ _)
  kept _ := rfl
  collides hp := absurd hp (h _ _)
  misses _ := rfl

/-- From a cleared VF, a collision is what sets it. -/
theorem flag_eq_one_iff (h : TogglesPixels P s t) (hs : readV s flagReg = 0) :
    readV t flagReg = 1 ↔ ∃ px py, P px py ∧ Bitmap.pixel s.bitmap px py = true := by
  refine ⟨fun hflag => ?_, fun ⟨px, py, hp, hon⟩ => h.collides hp hon⟩
  by_contra hnone
  have hclear : readV t flagReg = 0 :=
    (h.misses fun px py hp => eq_false_of_ne_true fun hon => hnone ⟨px, py, hp, hon⟩).trans hs
  exact absurd (hclear.symm.trans hflag) (by decide)

/-- Toggling the same pixels again restores the display. -/
theorem bitmap_of_twice (h : TogglesPixels P s t) {t' : State} (ht : t'.bitmap = t.bitmap)
    (h' : TogglesPixels P t' u) : u.bitmap = s.bitmap := by
  refine Bitmap.ext_pixel fun px py _ _ => ?_
  by_cases hp : P px py
  · rw [h'.drawn hp, ht, h.drawn hp, Bool.not_not]
  · rw [h'.kept hp, ht, h.kept hp]

/-- A collision is not forgotten. -/
theorem keeps_collision (h : TogglesPixels P s t) (hs : readV s flagReg = 1) : readV t flagReg = 1 := by
  by_cases hoff : ∀ px py, P px py → Bitmap.pixel s.bitmap px py = false
  · exact (h.misses hoff).trans hs
  · push Not at hoff
    obtain ⟨px, py, hp, hon⟩ := hoff
    exact h.collides hp (eq_true_of_ne_false hon)

/-- Two drawings that share no pixel are one drawing of both. -/
theorem trans (h : TogglesPixels P s t) (h' : TogglesPixels Q t u)
    (hdisjoint : ∀ px py, P px py → ¬Q px py) (hR : ∀ px py, R px py ↔ P px py ∨ Q px py) :
    TogglesPixels R s u where
  drawn hr := by
    obtain hp | hq := (hR _ _).1 hr
    · rw [h'.kept (hdisjoint _ _ hp), h.drawn hp]
    · rw [h'.drawn hq, h.kept fun hp => hdisjoint _ _ hp hq]
  kept hr := by
    obtain ⟨hp, hq⟩ := not_or.1 (mt (hR _ _).2 hr)
    rw [h'.kept hq, h.kept hp]
  collides hr hon := by
    obtain hp | hq := (hR _ _).1 hr
    · exact h'.keeps_collision (h.collides hp hon)
    · exact h'.collides hq ((h.kept fun hp => hdisjoint _ _ hp hq).trans hon)
  misses hoff := by
    have hP : readV t flagReg = readV s flagReg :=
      h.misses fun px py hp => hoff px py ((hR px py).2 (.inl hp))
    rw [← hP]
    refine h'.misses fun px py hq => ?_
    rw [h.kept fun hp => hdisjoint _ _ hp hq]
    exact hoff px py ((hR px py).2 (.inr hq))

end TogglesPixels

/-- Indices less than `size` apart wrap to different coordinates. -/
theorem wrap_add_injective {k a b size : Nat} (ha : a < size) (hb : b < size)
    (h : wrap (k + a) size = wrap (k + b) size) : a = b := by
  unfold wrap at h
  split at h <;> split at h <;> omega

namespace DrawArgs

variable (d : DrawArgs)

/-- The corner is the one read before VF was cleared, at every set bit. -/
def CornerFixed : Prop := d.sampling = .latched ∨ (d.x ≠ flagReg ∧ d.y ≠ flagReg)

/-- The sprite bit in row `r` and column `c` falls on the pixel `(px, py)`, from the latched corner. -/
def FallsOn (r c px py : Nat) : Prop := px = wrap (d.x0.toNat + c) 64 ∧ py = wrap (d.y0.toNat + r) 32

/-- A set bit of the row `b`, in one of the columns `cs` of row `r`, falls on the pixel. -/
def RowDrawsOn (r : Nat) (b : Byte) (cs : List Nat) (px py : Nat) : Prop :=
  ∃ c ∈ cs, b.getLsbD (7 - c) = true ∧ d.FallsOn r c px py

/-- A set bit of the sprite at `s`, in one of the `n` rows from row `r` on, falls on the pixel. -/
def RowsDrawOn (s : State) (r n px py : Nat) : Prop :=
  ∃ k c, r ≤ k ∧ k < r + n ∧ SpriteBit s k c ∧ d.FallsOn k c px py

end DrawArgs

section Toggles

variable {d : DrawArgs} {r c px py : Nat} {s t : State}

/-- Without register 15 or without `live` nothing is read again. -/
theorem cornerAt_of_latched {m : DrawSampling} {q : Reg} (h : m = .latched ∨ q ≠ flagReg) (b : Byte) :
    cornerAt m s q b = b := by
  refine if_neg ?_
  rintro ⟨hq, rfl⟩
  exact h.elim nofun fun hne => hne hq

/-- A set bit in the field toggles its pixel, and sets VF if that was on. -/
theorem drawBit_inField (hd : d.CornerFixed) (hpix : d.FallsOn r c px py) (hin : px < 64 ∧ py < 32) :
    drawBit d r c s
      = if Bitmap.pixel s.bitmap px py then
          writeV { s with bitmap := Bitmap.toggle s.bitmap px py hin } flagReg 1
        else { s with bitmap := Bitmap.toggle s.bitmap px py hin } := by
  obtain ⟨rfl, rfl⟩ := hpix
  rw [drawBit, cornerAt_of_latched (hd.imp_right And.left), cornerAt_of_latched (hd.imp_right And.right)]
  exact congrArg (fun p : State × Bool => if p.2 then writeV p.1 flagReg 1 else p.1)
    (setPixel_inField s d.off hin)

theorem drawBit_toggles (hd : d.CornerFixed) (hpix : d.FallsOn r c px py) (hin : px < 64 ∧ py < 32) :
    TogglesPixels (d.FallsOn r c) s (drawBit d r c s) := by
  have honly {qx qy : Nat} : d.FallsOn r c qx qy ↔ qx = px ∧ qy = py := by
    obtain ⟨rfl, rfl⟩ := hpix
    rfl
  have hbitmap : (drawBit d r c s).bitmap = Bitmap.toggle s.bitmap px py hin := by
    rw [drawBit_inField hd hpix hin]
    split <;> rfl
  refine ⟨fun hq => ?_, fun hq => ?_, fun hq hon => ?_, fun hoff => ?_⟩
  · obtain ⟨rfl, rfl⟩ := honly.1 hq
    rw [hbitmap, pixel_toggle, if_pos ⟨rfl, rfl⟩]
  · rw [hbitmap, pixel_toggle, if_neg (mt honly.2 hq)]
  · obtain ⟨rfl, rfl⟩ := honly.1 hq
    rw [drawBit_inField hd hpix hin, if_pos hon]
    exact readV_writeV_self _ flagReg 1
  · rw [drawBit_inField hd hpix hin, hoff px py hpix]
    rfl

/-- The columns of one row fall on different pixels, so each set bit toggles its own. -/
theorem drawRow_toggles (hd : d.CornerFixed) (b : Byte) :
    ∀ (cs : List Nat) (s : State), cs.Nodup → (∀ c ∈ cs, c < 8) →
      (∀ px py, d.RowDrawsOn r b cs px py → px < 64 ∧ py < 32) →
      TogglesPixels (d.RowDrawsOn r b cs) s (drawRow d r b cs s)
  | [], _, _, _, _ => .of_empty fun _ _ ⟨_, hc, _⟩ => absurd hc (List.not_mem_nil)
  | c :: cs, s, hnodup, hsmall, hin => by
    have htail := fun u => drawRow_toggles hd b cs u (List.nodup_cons.1 hnodup).2
      (fun k hk => hsmall k (List.mem_cons_of_mem c hk))
      (fun px py ⟨k, hk, hpix⟩ => hin px py ⟨k, List.mem_cons_of_mem c hk, hpix⟩)
    have hcons (px py : Nat) : d.RowDrawsOn r b (c :: cs) px py ↔
        (b.getLsbD (7 - c) = true ∧ d.FallsOn r c px py) ∨ d.RowDrawsOn r b cs px py := by
      simp only [DrawArgs.RowDrawsOn, List.mem_cons, exists_eq_or_imp]
    rw [drawRow]
    by_cases hbit : b.getLsbD (7 - c) = true
    · rw [if_pos hbit]
      simp only [hbit, true_and] at hcons
      have hhead := drawBit_toggles (s := s) hd ⟨rfl, rfl⟩ (hin _ _ ((hcons _ _).2 (.inl ⟨rfl, rfl⟩)))
      refine hhead.trans (htail _) ?_ hcons
      rintro px py ⟨hcol, -⟩ ⟨k, hk, -, hcol', -⟩
      have hck : c = k := wrap_add_injective ((hsmall c List.mem_cons_self).trans (by decide))
        ((hsmall k (List.mem_cons_of_mem c hk)).trans (by decide)) (hcol.symm.trans hcol')
      exact (List.nodup_cons.1 hnodup).1 (hck ▸ hk)
    · rw [if_neg hbit]
      have hhead : TogglesPixels (fun px py => b.getLsbD (7 - c) = true ∧ d.FallsOn r c px py) s s :=
        .of_empty fun _ _ hp => hbit hp.1
      exact hhead.trans (htail s) (fun _ _ hp => absurd hp.1 hbit) hcons

/-- Rows drawn without a fault: the first one, then the others. -/
theorem drawRows_succ_of_ok {n : Nat} (h : drawRows d (n + 1) r s = .ok t) :
    drawRows d n (r + 1)
      (drawRow d r (byteAt s (dataAddress s r)) [0, 1, 2, 3, 4, 5, 6, 7] s) = .ok t := by
  rw [drawRows, memRead_eq] at h
  by_cases ha : dataAddress s r ≤ 0xFFF
  · rwa [if_pos ha] at h
  · rw [if_neg ha] at h
    cases h

/-- The pixels of one more row. -/
theorem rowsDrawOn_succ (hs : SpriteBit t = SpriteBit s) (n : Nat) :
    d.RowsDrawOn s r (n + 1) px py ↔
      d.RowDrawsOn r (byteAt s (dataAddress s r)) [0, 1, 2, 3, 4, 5, 6, 7] px py ∨
        d.RowsDrawOn t (r + 1) n px py := by
  have hcolumns (c : Nat) : c ∈ [0, 1, 2, 3, 4, 5, 6, 7] ↔ c < 8 := List.mem_range (n := 8)
  simp only [DrawArgs.RowsDrawOn, DrawArgs.RowDrawsOn, hs, hcolumns]
  constructor
  · rintro ⟨k, c, hlow, hhigh, hbit, hpix⟩
    obtain rfl | hlt := hlow.eq_or_lt
    · exact .inl ⟨c, hbit.1, hbit.2, hpix⟩
    · exact .inr ⟨k, c, hlt, by omega, hbit, hpix⟩
  · rintro (⟨c, hc, hbit, hpix⟩ | ⟨k, c, hlow, hhigh, hbit, hpix⟩)
    · exact ⟨r, c, le_rfl, by omega, ⟨hc, hbit⟩, hpix⟩
    · exact ⟨k, c, by omega, by omega, hbit, hpix⟩

/-- The rows of a sprite fall on different pixels, so each row toggles its own. -/
theorem drawRows_toggles (hd : d.CornerFixed) :
    ∀ (n r : Nat) (s : State), r + n ≤ 16 →
      (∀ px py, d.RowsDrawOn s r n px py → px < 64 ∧ py < 32) →
      drawRows d n r s = .ok t → TogglesPixels (d.RowsDrawOn s r n) s t
  | 0, r, s, _, _, hrun => by
    obtain rfl := Except.ok.inj hrun
    exact .of_empty fun _ _ ⟨_, _, hlow, hhigh, _⟩ => absurd hlow (Nat.not_le.2 hhigh)
  | n + 1, r, s, hrows, hin, hrun => by
    have hsplit (px py : Nat) := rowsDrawOn_succ (d := d) (r := r) (px := px) (py := py)
      (drawRow_frame d r (byteAt s (dataAddress s r)) [0, 1, 2, 3, 4, 5, 6, 7] s).spriteBit_eq n
    have hhead := drawRow_toggles (r := r) hd (byteAt s (dataAddress s r)) [0, 1, 2, 3, 4, 5, 6, 7] s
      (by decide) (by decide) (fun px py hp => hin px py ((hsplit px py).2 (.inl hp)))
    have htail := drawRows_toggles hd n (r + 1) _ (by omega)
      (fun px py hq => hin px py ((hsplit px py).2 (.inr hq))) (drawRows_succ_of_ok hrun)
    refine hhead.trans htail ?_ hsplit
    rintro px py ⟨c, -, -, -, hrow⟩ ⟨k, c', hlow, hhigh, -, -, hrow'⟩
    have hrk : r = k := wrap_add_injective (by omega) (by omega) (hrow.symm.trans hrow')
    omega

end Toggles

/-- The pixels that a set bit of DRW's sprite falls on. -/
def DrawnPixel (s : State) (x y : Reg) (n : Nat) (px py : Nat) : Prop := ∃ r c, DrawsOn s x y n r c px py

theorem rowsDrawOn_spriteArgs (s : State) (x y : Reg) (n : Nat) :
    (spriteArgs x y s).RowsDrawOn (writeV s flagReg 0) 0 n = DrawnPixel s x y n := by
  funext px py
  simp only [DrawArgs.RowsDrawOn, Nat.zero_le, Nat.zero_add, true_and]
  rfl

/-- DRW of a sprite in memory and in the field, with its corner read before VF is cleared, toggles exactly
the pixels under the sprite's set bits. -/
theorem exec_drw_toggles {x y : Reg} {n : BitVec 4} {s : State}
    (hcorner : Config.drawXySampling = .latched ∨ (x ≠ 15 ∧ y ≠ 15))
    (hmem : SpriteInMemory s n.toNat) (hfield : DrawsInField s x y n.toNat) :
    ∃ t, exec (.drw x y n) s = .next t ∧ DrawFrame (writeV s flagReg 0) t ∧
      TogglesPixels (DrawnPixel s x y n.toNat) (writeV s flagReg 0) t := by
  obtain ⟨t, hframe, ⟨-, hrun⟩ | ⟨hout, -⟩⟩ := spriteRows_cases x y n s
  · have htoggles := drawRows_toggles (d := spriteArgs x y s) hcorner n.toNat 0 (writeV s flagReg 0)
      (by omega) (by rw [rowsDrawOn_spriteArgs]; exact fun px py ⟨r, c, h⟩ => hfield r c px py h) hrun
    rw [rowsDrawOn_spriteArgs] at htoggles
    exact ⟨t, exec_drw_of_ok hrun, hframe, htoggles⟩
  · exact absurd hmem hout

/-- Settles O39: the toggled pixels and the collision of `exec_drw_toggles`, VF being 0 before the rows. -/
theorem drawTogglesExactlyTheSprite : Obligations.DrawTogglesExactlyTheSprite := by
  intro x y n s hcorner hmem hfield
  obtain ⟨t, hexec, -, htoggles⟩ := exec_drw_toggles hcorner hmem hfield
  refine ⟨t, hexec, fun px py _ _ => ⟨htoggles.drawn, htoggles.kept⟩, ?_, fun hmiss => ?_⟩
  · rintro ⟨r, c, px, py, hdraws, hon⟩
    exact htoggles.collides ⟨r, c, hdraws⟩ hon
  · refine (htoggles.misses fun px py ⟨r, c, hdraws⟩ => ?_).trans (readV_writeV_self s flagReg 0)
    exact eq_false_of_ne_true fun hon => hmiss ⟨r, c, px, py, hdraws, hon⟩

/-- A draw whose corner registers are not VF leaves the sprite where it was. -/
theorem drawsOn_of_draw {x y : Reg} {s t : State} (hx : x ≠ 15) (hy : y ≠ 15)
    (h : DrawFrame (writeV s flagReg 0) t) : DrawsOn t x y = DrawsOn s x y := by
  have hbit : SpriteBit t = SpriteBit s := h.spriteBit_eq
  unfold DrawsOn
  rw [hbit, readV_of_draw h hx, readV_of_draw h hy]

/-- Settles O40: the second draw toggles the same pixels back, and finds on what the first turned on. -/
theorem drawTwiceRestoresTheDisplay : Obligations.DrawTwiceRestoresTheDisplay := by
  intro x y n s hx hy hmem hfield
  obtain ⟨t, hexec, hframe, hfirst⟩ := exec_drw_toggles (.inr ⟨hx, hy⟩) hmem hfield
  have hdraws : DrawsOn t x y = DrawsOn s x y := drawsOn_of_draw hx hy hframe
  have hi : t.i = s.i := hframe.i_eq
  obtain ⟨u, hexec', -, hsecond⟩ := exec_drw_toggles (s := t) (n := n) (.inr ⟨hx, hy⟩)
    (by rwa [SpriteInMemory, dataAddress, hi]) (by rwa [DrawsInField, hdraws])
  have hpixels : DrawnPixel t x y = DrawnPixel s x y := by unfold DrawnPixel; rw [hdraws]
  rw [hpixels] at hsecond
  have hturned {px py : Nat} (hp : DrawnPixel s x y n.toNat px py) :
      Bitmap.pixel t.bitmap px py = true ↔ Bitmap.pixel s.bitmap px py = false := by
    rw [hfirst.drawn hp, Bool.not_eq_true']
    rfl
  refine ⟨t, u, hexec, hexec', hfirst.bitmap_of_twice (t' := writeV t flagReg 0) rfl hsecond, ?_⟩
  refine (hsecond.flag_eq_one_iff (readV_writeV_self t flagReg 0)).trans ⟨?_, ?_⟩
  · rintro ⟨px, py, ⟨r, c, hp⟩, hon⟩
    exact ⟨r, c, px, py, hp, (hturned ⟨r, c, hp⟩).1 hon⟩
  · rintro ⟨r, c, px, py, hp, hoff⟩
    exact ⟨px, py, ⟨r, c, hp⟩, (hturned ⟨r, c, hp⟩).2 hoff⟩

end Sys2Proof.Machine
end

section
/-! PROOFS of the family 60_exceptions: what a raise leaves of the instruction, the batch and the tick; the
cycle and the step; the tick taken step by step; the timers and the delivered key. -/

namespace Sys2Proof.Machine

/-! ## When the core executes (R33, R262, R273) -/

section Executes

variable {s : State}

theorem executes_eq_true_iff :
    executes s = true ↔ s.fault = none ∧ s.halted = false ∧ s.keyWait = none :=
  executes_iff.trans (and_congr_right' mode_eq_running)

theorem executes_eq_false_iff :
    executes s = false ↔ s.fault ≠ none ∨ s.halted = true ∨ s.keyWait ≠ none := by
  rw [← Bool.not_eq_true, executes_eq_true_iff, not_and_or, not_and_or, Bool.not_eq_false]

theorem noFault_of_executes (h : executes s = true) : NoFault s := (executes_iff.1 h).1

end Executes

/-! ## The cycle (R273) -/

section Cycle

variable {s t : State} {w : Word}

theorem cycle_of_not_executes (h : executes s = false) : cycle s = .next s := by simp [cycle, h]

theorem cycle_of_fetch_error (hexec : executes s = true) (hfetch : fetch s = .error t) :
    cycle s = .next t := by
  simp [cycle, hexec, hfetch]

theorem cycle_of_illegal {e : DecodeError} (hexec : executes s = true) (hfetch : fetch s = .ok w)
    (hdecode : decode w = .error e) : cycle s = .next (raise s (.illegalInstruction w s.pc)) := by
  simp [cycle, hexec, hfetch, hdecode]

theorem cycle_of_decoded {i : Instr} (hexec : executes s = true) (hfetch : fetch s = .ok w)
    (hdecode : decode w = .ok i) (hrun : exec i { s with pcSet := false } = .next t) :
    cycle s = .next (advance t) := by
  simp [cycle, runInstr, hexec, hfetch, hdecode, hrun]

/-- PC moves on exactly when the executor neither faulted nor wrote it (R25, R26). -/
theorem advance_eq_ite (t : State) :
    advance t = if t.fault = none ∧ t.pcSet = false then { t with pc := t.pc + 2 } else t := by
  unfold advance
  cases t.fault <;> cases t.pcSet <;> rfl

@[simp] theorem advance_fault (t : State) : (advance t).fault = t.fault := by rw [advance_eq]

/-- PC stays at an instruction that faulted (R261). -/
theorem advance_of_fault (h : t.fault ≠ none) : advance t = t := by
  rw [advance_eq_ite, if_neg fun hn => h hn.1]

end Cycle

/-- Settles O42: the four ends of a cycle, and `advance` case by case. -/
theorem cycleRule : Obligations.CycleRule := by
  intro s
  refine ⟨executes_eq_true_iff, cycle_of_not_executes, fun hexec t => cycle_of_fetch_error hexec,
    fun hexec w e hfetch hdecode => ?_, fun hexec w i t hfetch hdecode hrun => ?_⟩
  · rw [cycle_of_illegal hexec hfetch hdecode, raise_of_noFault s _ (noFault_of_executes hexec)]
  · rw [cycle_of_decoded hexec hfetch hdecode hrun, advance_eq_ite]

/-! ## Every execution, cycle and step goes on (R262; log 4) -/

theorem exec_next (i : Instr) (s : State) : ∃ t, exec i s = .next t := by
  cases i
  case call | ret | bcd | storeRegs | loadRegs | skp | sknp | drw => exact settle_next _
  all_goals exact ⟨_, rfl⟩

theorem cycle_next (s : State) : ∃ t, cycle s = .next t := by
  cases hexec : executes s with
  | false => exact ⟨s, cycle_of_not_executes hexec⟩
  | true =>
    cases hfetch : fetch s with
    | error t => exact ⟨t, cycle_of_fetch_error hexec hfetch⟩
    | ok w =>
      cases hdecode : decode w with
      | error e => exact ⟨_, cycle_of_illegal hexec hfetch hdecode⟩
      | ok i =>
        obtain ⟨t, hrun⟩ := exec_next i { s with pcSet := false }
        exact ⟨advance t, cycle_of_decoded hexec hfetch hdecode hrun⟩

/-! ## The step and the tick's bookkeeping (R274; log 1) -/

section Step

variable {s t : State}

/-- Between ticks a core that does not execute starts no tick. -/
theorem step_of_not_executes (h0 : s.tickPos = 0) (hexec : executes s = false) : step s = .next s :=
  if_pos ⟨h0, hexec⟩

/-- Inside a tick, or at the start of one, a step is a cycle and the bookkeeping. -/
theorem step_of_cycle (hrun : s.tickPos = 0 → executes s = true) (hcycle : cycle s = .next t) :
    step s = .next (afterCycle t) := by
  have hidle : ¬(s.tickPos = 0 ∧ executes s = false) := fun ⟨h0, hexec⟩ =>
    Bool.noConfusion (hexec.symm.trans (hrun h0))
  rw [step, tickSlot, if_neg hidle, hcycle]

theorem afterCycle_of_fault (h : t.fault ≠ none) : afterCycle t = { t with tickPos := 0 } :=
  if_pos (Option.isSome_iff_ne_none.2 h)

theorem afterCycle_of_last (h : NoFault t) (hlast : 9 ≤ t.tickPos) :
    afterCycle t = timerDecrement { t with tickPos := 0 } := by
  have hten : cyclesPerTick ≤ t.tickPos + 1 := Nat.succ_le_succ hlast
  simp [afterCycle, h, hten]

theorem afterCycle_of_not_last (h : NoFault t) (hmore : t.tickPos < 9) :
    afterCycle t = { t with tickPos := t.tickPos + 1 } := by
  have hten : ¬cyclesPerTick ≤ t.tickPos + 1 := Nat.not_le.2 (Nat.succ_lt_succ hmore)
  simp [afterCycle, h, hten]

theorem step_next (s : State) : ∃ t, step s = .next t := by
  by_cases hidle : s.tickPos = 0 ∧ executes s = false
  · exact ⟨s, step_of_not_executes hidle.1 hidle.2⟩
  · obtain ⟨t, hcycle⟩ := cycle_next s
    have hrun : s.tickPos = 0 → executes s = true := fun h0 =>
      eq_true_of_ne_false fun hexec => hidle ⟨h0, hexec⟩
    exact ⟨afterCycle t, step_of_cycle hrun hcycle⟩

end Step

/-- Settles O46: an executor that may raise settles, the others end in a state written out. -/
theorem everyStepGoesOn : Obligations.EveryStepGoesOn := ⟨exec_next, step_next⟩

/-- Two bytes decode as their big-endian word, with no byte left (R65, R80). -/
theorem decodeBytes_pair {hi lo : Byte} {i : Instr} :
    decodeBytes [hi, lo] = .ok (i, []) ↔ decode (wordOfBytes hi lo) = .ok i := by
  simp only [decodeBytes]
  cases decode (wordOfBytes hi lo) <;> simp

/-- Settles O43: the fetched word is that of the two bytes; then the cases of `advance` and `afterCycle`. -/
theorem stepRunsTheDecodedInstruction : Obligations.StepRunsTheDecodedInstruction := by
  refine ⟨fun s i hexec heven hin hdec t hrun => ?_, advance_eq_ite, fun t => ?_⟩
  · exact step_of_decoded hexec (fetch_inside heven hin) (decodeBytes_pair.1 hdec) hrun
  · by_cases hf : t.fault = none
    · rw [if_neg (not_not_intro hf)]
      by_cases hlast : 9 ≤ t.tickPos
      · rw [if_pos hlast, afterCycle_of_last hf hlast]
      · rw [if_neg hlast, afterCycle_of_not_last hf (Nat.not_le.1 hlast)]
    · rw [if_pos hf, afterCycle_of_fault hf]

/-! ## A raised fault is true of the state it stops (R260, R261) -/

/-- The end of an operation that may raise, begun without a fault at `pc`: completed, it recorded none;
raised, its record agrees with the state and PC is still `pc`. -/
def EndsTruly (pc : Word) : Except State State → Prop
  | .ok t => NoFault t
  | .error t => FaultAgrees t ∧ t.pc = pc

namespace EndsTruly

variable {pc : Word} {s t : State}

/-- A raise where no fault is recorded is true of the state when its fault is. -/
theorem of_raise {f : Fault} (hs : NoFault s) (hf : FaultAgrees { s with fault := some f }) :
    EndsTruly s.pc (.error (raise s f)) :=
  ⟨(raise_of_noFault s f hs).symm ▸ hf, raise_pc s f⟩

/-- What goes on after an operation that may raise and leaves the fault record alone. -/
theorem map {e : Except State State} (h : EndsTruly pc e) {f : State → State}
    (hf : ∀ u, (f u).fault = u.fault) : EndsTruly pc (e.map f) := by
  cases e with
  | error u => exact h
  | ok u => exact (hf u).trans h

theorem of_settle {e : Except State State} (h : EndsTruly pc e) (ht : settle e = .next t) :
    NoFault t ∨ (FaultAgrees t ∧ t.pc = pc) := by
  obtain rfl | rfl := settle_eq_next.1 ht
  · exact .inl h
  · exact .inr h

end EndsTruly

@[simp] theorem skipIf_fault (c : Bool) (s : State) : (skipIf c s).fault = s.fault := by
  cases c <;> rfl

@[simp] theorem advanceI_fault (s : State) (x : Reg) : (advanceI s x).fault = s.fault := by
  rw [advanceI_eq]

/-- The byte writes of BCD, one after another. -/
theorem endsTruly_writeBytes :
    ∀ (bs : List Byte) (a : Nat) (s : State), NoFault s → EndsTruly s.pc (writeBytes s a bs)
  | [], _, _, hs => hs
  | b :: bs, a, s, hs => by
    rw [writeBytes, memWrite_eq]
    by_cases ha : a ≤ 0xFFF
    · rw [if_pos ha]
      exact endsTruly_writeBytes bs (a + 1) { s with mem := s.mem.write a b } hs
    · rw [if_neg ha]
      exact .of_raise hs (Nat.not_le.1 ha)

theorem endsTruly_storeList (base : Nat) :
    ∀ (ks : List Reg) (s : State), NoFault s → EndsTruly s.pc (storeList base ks s)
  | [], _, hs => hs
  | k :: ks, s, hs => by
    rw [storeList, memWrite_eq]
    by_cases ha : base + k.val ≤ 0xFFF
    · rw [if_pos ha]
      exact endsTruly_storeList base ks { s with mem := s.mem.write (base + k.val) (readV s k) } hs
    · rw [if_neg ha]
      exact .of_raise hs (Nat.not_le.1 ha)

theorem endsTruly_loadList (base : Nat) :
    ∀ (ks : List Reg) (s : State), NoFault s → EndsTruly s.pc (loadList base ks s)
  | [], _, hs => hs
  | k :: ks, s, hs => by
    rw [loadList, memRead_eq]
    by_cases ha : base + k.val ≤ 0xFFF
    · rw [if_pos ha]
      exact endsTruly_loadList base ks (writeV s k (byteAt s (base + k.val))) hs
    · rw [if_neg ha]
      exact .of_raise hs (Nat.not_le.1 ha)

/-- A refused word is refused by its own name (R92). -/
theorem decode_error_eq {w : Word} {e : DecodeError} (h : decode w = .error e) : e = .illegal w :=
  ((refusedWordsAreTheIllegalOnes w e).1 h).1

section Raises

variable {s t : State} (hs : NoFault s)

include hs

theorem endsTruly_push (w : Word) : EndsTruly s.pc (push s w) := by
  obtain ⟨t, ht, -, -, -, heq⟩ | ⟨hfull, herr⟩ := push_cases s w
  · rw [ht, heq]
    exact hs
  · rw [herr]
    exact .of_raise hs ⟨rfl, hfull⟩

theorem endsTruly_pop : EndsTruly s.pc ((pop s).map fun p => setPc p.2 p.1) := by
  obtain ⟨t, k, hk, -, ht, -, heq⟩ | ⟨hempty, herr⟩ := pop_cases s
  · rw [ht, heq]
    exact hs
  · rw [herr]
    exact .of_raise hs ⟨rfl, hempty⟩

theorem endsTruly_keySkip (x : Reg) (c : Fin 16 → Bool) :
    EndsTruly s.pc ((keyCode s x).map fun k => skipIf (c k) s) := by
  obtain ⟨k, hk, -⟩ | ⟨hout, herr⟩ := keyCode_cases s x
  · rw [hk]
    exact (skipIf_fault _ s).trans hs
  · rw [herr]
    exact .of_raise hs hout

theorem endsTruly_drawRows (d : DrawArgs) (n r : Nat) : EndsTruly s.pc (drawRows d n r s) := by
  obtain ⟨t, ht, hframe, -⟩ | ⟨t, k, ht, hframe, -, hout, -⟩ := drawRows_cases d n r s
  · rw [ht]
    exact hframe.fault_eq.trans hs
  · have hpc : t.pc = s.pc := by rw [hframe.1]
    rw [ht, ← hpc]
    exact .of_raise (hframe.fault_eq.trans hs) hout

/-- An execution begun without a fault records none, or one that is true of the state, PC kept. -/
theorem exec_fault_agrees {ins : Instr} (h : exec ins s = .next t) :
    NoFault t ∨ (FaultAgrees t ∧ t.pc = s.pc) := by
  cases ins
  case call =>
    exact ((endsTruly_push hs _).map (setPc_fault · _)).of_settle ((execCall_eq s _).symm.trans h)
  case ret => exact (endsTruly_pop hs).of_settle ((execRet_eq s).symm.trans h)
  case skp x => exact (endsTruly_keySkip hs x _).of_settle ((execSkp_eq x s).symm.trans h)
  case sknp x => exact (endsTruly_keySkip hs x _).of_settle ((execSknp_eq x s).symm.trans h)
  case bcd => exact (endsTruly_writeBytes _ _ s hs).of_settle h
  case storeRegs x =>
    exact ((endsTruly_storeList _ _ s hs).map (advanceI_fault · x)).of_settle
      ((execStoreRegs_eq x s).symm.trans h)
  case loadRegs x =>
    exact ((endsTruly_loadList _ _ s hs).map (advanceI_fault · x)).of_settle
      ((execLoadRegs_eq x s).symm.trans h)
  case drw => exact (endsTruly_drawRows (s := writeV s flagReg 0) hs _ _ 0).of_settle h
  all_goals
    obtain rfl := Host.Outcome.next.inj h
    left
  case seImm | sneImm | seReg | sneReg => exact (skipIf_fault _ s).trans hs
  all_goals exact hs

/-- A fetch that raises names the odd PC or the address above 0xFFF (R66). -/
theorem fetch_error_agrees (h : fetch s = .error t) : FaultAgrees t ∧ t.pc = s.pc := by
  rw [fetch_eq] at h
  by_cases hodd : s.pc.toNat % 2 = 1
  · rw [if_pos hodd] at h
    obtain rfl := Except.error.inj h
    exact EndsTruly.of_raise hs ⟨rfl, hodd⟩
  · rw [if_neg hodd] at h
    by_cases hin : s.pc.toNat ≤ 0xFFF
    · rw [if_pos hin] at h
      cases h
    · rw [if_neg hin] at h
      obtain rfl := Except.error.inj h
      exact EndsTruly.of_raise hs (Nat.not_le.1 hin)

/-- A cycle begun without a fault records none, or one that is true of the state, PC kept (R261, R273). -/
theorem cycle_fault_agrees (h : cycle s = .next t) : NoFault t ∨ (FaultAgrees t ∧ t.pc = s.pc) := by
  obtain ⟨-, rfl⟩ | ⟨-, hfetch⟩ | ⟨w, e, -, -, hdecode, rfl⟩ | ⟨w, i, u, -, -, -, hrun, rfl⟩ :=
    cycle_cases h
  · exact .inl hs
  · exact .inr (fetch_error_agrees hs hfetch)
  · rw [decode_error_eq hdecode] at hdecode
    exact .inr (EndsTruly.of_raise hs ⟨rfl, hdecode⟩)
  · obtain hu | hu := exec_fault_agrees (s := { s with pcSet := false }) hs hrun
    · exact .inl ((advance_fault u).trans hu)
    · by_cases hf : u.fault = none
      · exact .inl ((advance_fault u).trans hf)
      · rw [advance_of_fault hf]
        exact .inr hu

end Raises

/-! ## The fault record and the tick position that every step keeps (R260, R261, R274) -/

section Kept

variable {s t : State}

/-- The bookkeeping leaves what a fault record speaks of. -/
theorem faultAgrees_afterCycle (h : FaultAgrees t) : FaultAgrees (afterCycle t) := by
  rw [afterCycle_eq]
  exact h

theorem cycle_keeps_faultAgrees (hs : FaultAgrees s) (h : cycle s = .next t) : FaultAgrees t := by
  cases hf : s.fault with
  | some f =>
    obtain rfl := Host.Outcome.next.inj ((cycle_of_fault hf).symm.trans h)
    exact hs
  | none =>
    obtain ht | ⟨hagrees, -⟩ := cycle_fault_agrees hf h
    · rw [FaultAgrees, ht]
      trivial
    · exact hagrees

/-- The bookkeeping ends in a tick position of R274, whatever it finds. -/
theorem tickOk_afterCycle (t : State) : TickOk (afterCycle t) := by
  by_cases hf : t.fault = none
  · refine ⟨?_, fun hn => absurd ((afterCycle_fault t).trans hf) hn⟩
    by_cases hlast : 9 ≤ t.tickPos
    · rw [afterCycle_of_last hf hlast]
      exact Nat.succ_pos 9
    · rw [afterCycle_of_not_last hf (Nat.not_le.1 hlast)]
      exact Nat.succ_lt_succ (Nat.not_le.1 hlast)
  · rw [afterCycle_of_fault hf]
    exact ⟨Nat.succ_pos 9, fun _ => rfl⟩

end Kept

/-- Settles O49: a step that does anything is a cycle, which keeps the record true, and the bookkeeping. -/
theorem stepKeepsFaultRecordAndTick : Obligations.StepKeepsFaultRecordAndTick := by
  intro s t hs htick h
  obtain ⟨-, -, rfl⟩ | ⟨u, hcycle, rfl⟩ := step_cases h
  · exact ⟨hs, htick⟩
  · exact ⟨faultAgrees_afterCycle (cycle_keeps_faultAgrees hs hcycle), tickOk_afterCycle u⟩

/-! ## The batch and the tick (R274) -/

/-- What a tick makes of the state its batch ended in: a fault skips the timers (R274, R275). -/
def endTick (s : State) : State := if s.fault = none then timerDecrement s else s

section Tick

variable {s t : State}

theorem batch_of_fault (hcycle : cycle s = .next t) (hf : t.fault ≠ none) (n : Nat) :
    batch (n + 1) s = .next t := by
  simp [batch, hcycle, Option.isSome_iff_ne_none.2 hf]

theorem batch_of_noFault (hcycle : cycle s = .next t) (hf : NoFault t) (n : Nat) :
    batch (n + 1) s = batch n t := by
  simp [batch, hcycle, hf]

theorem runTick_of_not_executes (h : executes s = false) : runTick s = .next s := by simp [runTick, h]

theorem runTick_of_batch (hexec : executes s = true) (h : batch 10 s = .next t) :
    runTick s = .next (endTick t) := by
  simp only [runTick, cyclesPerTick, hexec, h, if_true, endTick]
  cases t.fault <;> rfl

theorem endTick_of_noFault (h : NoFault t) : endTick t = timerDecrement t := if_pos h

theorem endTick_of_fault (h : t.fault ≠ none) : endTick t = t := if_neg h

end Tick

/-- Settles O13: the two cases of `raise`; a cycle that faults keeps PC and is the batch's last. -/
theorem raiseEndsInstructionAndTick : Obligations.RaiseEndsInstructionAndTick := by
  refine ⟨raise_of_noFault, fun s f g hg => raise_of_fault hg f, fun s t n hexec hcycle hf => ?_,
    fun s t hexec hbatch hf => ?_⟩
  · obtain ht | ⟨-, hpc⟩ := cycle_fault_agrees (noFault_of_executes hexec) hcycle
    · exact absurd ht hf
    · exact ⟨hpc, batch_of_fault hcycle hf n⟩
  · rw [runTick_of_batch hexec hbatch, endTick_of_fault hf]

/-- Settles O47: a core that does not execute starts neither a tick nor a cycle. -/
theorem waitingCoreStandsStill : Obligations.WaitingCoreStandsStill := by
  intro s h0 hidle
  have hexec : executes s = false := executes_eq_false_iff.2 hidle
  exact ⟨runTick_of_not_executes hexec, step_of_not_executes h0 hexec⟩

/-! ## The timers and the delivered key (R272, R275, R280) -/

theorem countDown_toNat (b : Byte) : (countDown b).toNat = b.toNat - 1 := by
  unfold countDown
  split <;> bv_omega

/-- Settles O33: the end of a tick without a fault, and the countdown of each timer. -/
theorem timersStopAtZero : Obligations.TimersStopAtZero := by
  refine fun s => ⟨fun t hexec hbatch hf => ?_, countDown_toNat s.dt, countDown_toNat s.st, rfl,
    decide_eq_true_iff⟩
  rw [runTick_of_batch hexec hbatch, endTick_of_noFault hf]

section Delivery

variable {s : State} {k : Nat}

/-- Between ticks a key code is accepted or refused by its range (R272, R305). -/
theorem hostCall_deliverKeyPress (h0 : s.tickPos = 0) :
    hostCall (.deliverKeyPress k) s = deliverKeyPress k s := by
  simp [hostCall, h0]

/-- A core that is faulted, halted or not waiting ignores a key (R272). -/
theorem acceptKey_of_ignored (h : s.fault ≠ none ∨ s.halted = true ∨ s.keyWait = none) (k : Fin 16) :
    acceptKey k s = s := by
  unfold acceptKey
  obtain hf | hh | hw := h
  · rw [if_pos (Option.isSome_iff_ne_none.2 hf)]
  · rw [if_pos hh, ite_self]
  · rw [hw, ite_self, ite_self]

end Delivery

/-- Settles O36: the range of the code, then whether the core takes the key. -/
theorem keyDelivery : Obligations.KeyDelivery := by
  intro s k h0
  rw [hostCall_deliverKeyPress h0]
  refine ⟨fun hout => dif_neg (by omega), fun hk hignored => ?_, fun x hk hs hrun hwait => ?_⟩
  · exact (dif_pos (Nat.lt_succ_of_le hk)).trans
      (congrArg Host.Outcome.next (acceptKey_of_ignored hignored _))
  · exact (dif_pos (Nat.lt_succ_of_le hk)).trans
      (congrArg Host.Outcome.next (acceptKey_of_wait hs hrun hwait _))

/-! ## What no execution reads: the tick position (R274; log 1)

The batch of `runTick` runs every cycle at one tick position, the steps run each at its own. `State.atTick k`
sets the position; every shared operation commutes with it, so each executor and the cycle do. `mapEnd` and
its lemmas are those of `State.retune`, which reaches the sound timer and the quirks alone. -/

/-- The state at another tick position. -/
def State.atTick (k : Nat) (s : State) : State := { s with tickPos := k }

section AtTick

variable (k : Nat) (s : State)

@[simp] theorem atTick_fault : (s.atTick k).fault = s.fault := rfl

@[simp] theorem readV_atTick (x : Reg) : readV (s.atTick k) x = readV s x := rfl

theorem raise_atTick (f : Fault) : raise (s.atTick k) f = (raise s f).atTick k := by
  unfold raise
  rw [atTick_fault]
  cases s.fault <;> rfl

theorem skipIf_atTick (c : Bool) : skipIf c (s.atTick k) = (skipIf c s).atTick k := by
  cases c <;> rfl

theorem advanceI_atTick (x : Reg) : advanceI (s.atTick k) x = (advanceI s x).atTick k := by
  have hq : (s.atTick k).qIncI = s.qIncI := rfl
  unfold advanceI
  rw [hq]
  cases s.qIncI <;> rfl

theorem advance_atTick : advance (s.atTick k) = (advance s).atTick k := by
  have hset : (s.atTick k).pcSet = s.pcSet := rfl
  rw [advance_eq_ite, advance_eq_ite, atTick_fault, hset]
  split <;> rfl

theorem push_atTick (w : Word) :
    push (s.atTick k) w = mapEnd (State.atTick k) (State.atTick k) (push s w) := by
  have hsp : (s.atTick k).sp = s.sp := rfl
  simp only [push, raise_atTick, hsp]
  split <;> rfl

theorem pop_atTick :
    pop (s.atTick k) = mapEnd (State.atTick k) (Prod.map id (State.atTick k)) (pop s) := by
  have hsp : (s.atTick k).sp = s.sp := rfl
  simp only [pop, raise_atTick, hsp]
  split <;> rfl

theorem keyCode_atTick (x : Reg) :
    keyCode (s.atTick k) x = mapEnd (State.atTick k) id (keyCode s x) := by
  simp only [keyCode, raise_atTick, readV_atTick]
  split <;> rfl

theorem memRead_atTick (a : Nat) :
    memRead (s.atTick k) a = mapEnd (State.atTick k) id (memRead s a) := by
  rw [memRead_eq, memRead_eq, raise_atTick]
  split <;> rfl

theorem memWrite_atTick (a : Nat) (b : Byte) :
    memWrite (s.atTick k) a b = mapEnd (State.atTick k) (State.atTick k) (memWrite s a b) := by
  rw [memWrite_eq, memWrite_eq, raise_atTick]
  split <;> rfl

theorem writeBytes_atTick :
    ∀ (bs : List Byte) (a : Nat) (s : State),
      writeBytes (s.atTick k) a bs = mapEnd (State.atTick k) (State.atTick k) (writeBytes s a bs)
  | [], _, _ => rfl
  | b :: bs, a, s => by
    rw [writeBytes, writeBytes, memWrite_atTick]
    cases memWrite s a b with
    | error u => rfl
    | ok u => exact writeBytes_atTick bs (a + 1) u

theorem storeList_atTick (base : Nat) :
    ∀ (rs : List Reg) (s : State),
      storeList base rs (s.atTick k) = mapEnd (State.atTick k) (State.atTick k) (storeList base rs s)
  | [], _ => rfl
  | r :: rs, s => by
    rw [storeList, storeList, memWrite_atTick, readV_atTick]
    cases memWrite s (base + r.val) (readV s r) with
    | error u => rfl
    | ok u => exact storeList_atTick base rs u

theorem loadList_atTick (base : Nat) :
    ∀ (rs : List Reg) (s : State),
      loadList base rs (s.atTick k) = mapEnd (State.atTick k) (State.atTick k) (loadList base rs s)
  | [], _ => rfl
  | r :: rs, s => by
    rw [loadList, loadList, memRead_atTick]
    cases memRead s (base + r.val) with
    | error u => rfl
    | ok b => exact loadList_atTick base rs (writeV s r b)

theorem drawBit_atTick (d : DrawArgs) (r c : Nat) :
    drawBit d r c (s.atTick k) = (drawBit d r c s).atTick k := by
  have hcorner : ∀ q b, cornerAt d.sampling (s.atTick k) q b = cornerAt d.sampling s q b :=
    fun _ _ => rfl
  have hpixel : ∀ px py, setPixel d.off (s.atTick k) px py
      = ((setPixel d.off s px py).1.atTick k, (setPixel d.off s px py).2) := fun px py => by
    unfold setPixel
    split <;> rfl
  simp only [drawBit, hcorner, hpixel]
  split <;> rfl

theorem drawRow_atTick (d : DrawArgs) (r : Nat) (b : Byte) :
    ∀ (cs : List Nat) (s : State), drawRow d r b cs (s.atTick k) = (drawRow d r b cs s).atTick k
  | [], _ => rfl
  | c :: cs, s => by
    rw [drawRow, drawRow, drawBit_atTick, ← drawRow_atTick d r b cs]
    split <;> rfl

theorem drawRows_atTick (d : DrawArgs) :
    ∀ (n r : Nat) (s : State),
      drawRows d n r (s.atTick k) = mapEnd (State.atTick k) (State.atTick k) (drawRows d n r s)
  | 0, _, _ => rfl
  | n + 1, r, s => by
    have haddr : dataAddress (s.atTick k) r = dataAddress s r := rfl
    rw [drawRows, drawRows, haddr, memRead_atTick]
    cases memRead s (dataAddress s r) with
    | error u => rfl
    | ok b =>
      simp only [mapEnd, id, drawRow_atTick]
      exact drawRows_atTick d n (r + 1) _

theorem fetch_atTick : fetch (s.atTick k) = mapEnd (State.atTick k) id (fetch s) := by
  have hpc : (s.atTick k).pc = s.pc := rfl
  have hbyte : ∀ a, byteAt (s.atTick k) a = byteAt s a := fun _ => rfl
  simp only [fetch_eq, hpc, hbyte, raise_atTick]
  split
  · rfl
  · split <;> rfl

variable {s} {t : State}

/-- Every execution commutes with another tick position. -/
theorem exec_atTick {ins : Instr} (h : exec ins s = .next t) :
    exec ins (s.atTick k) = .next (t.atTick k) := by
  cases ins
  case call nnn =>
    simp only [exec, execCall_eq] at h ⊢
    exact settle_map_mapEnd (push_atTick k s _) (fun _ => rfl) h
  case ret =>
    simp only [exec, execRet_eq] at h ⊢
    exact settle_map_mapEnd (pop_atTick k s) (fun _ => rfl) h
  case skp x =>
    simp only [exec, execSkp_eq] at h ⊢
    exact settle_map_mapEnd (keyCode_atTick k s x) (fun _ => skipIf_atTick k s _) h
  case sknp x =>
    simp only [exec, execSknp_eq] at h ⊢
    exact settle_map_mapEnd (keyCode_atTick k s x) (fun _ => skipIf_atTick k s _) h
  case bcd => exact (congrArg settle (writeBytes_atTick k _ _ s)).trans (settle_mapEnd h)
  case storeRegs x =>
    simp only [exec, execStoreRegs_eq] at h ⊢
    exact settle_map_mapEnd (storeList_atTick k _ _ s) (fun u => advanceI_atTick k u x) h
  case loadRegs x =>
    simp only [exec, execLoadRegs_eq] at h ⊢
    exact settle_map_mapEnd (loadList_atTick k _ _ s) (fun u => advanceI_atTick k u x) h
  case drw => exact (congrArg settle (drawRows_atTick k _ _ 0 _)).trans (settle_mapEnd h)
  all_goals obtain rfl := Host.Outcome.next.inj h
  case seImm | sneImm | seReg | sneReg => exact congrArg Host.Outcome.next (skipIf_atTick k s _)
  all_goals rfl

/-- A cycle, however it ends, commutes with another tick position (R273). -/
theorem cycle_atTick (h : cycle s = .next t) : cycle (s.atTick k) = .next (t.atTick k) := by
  obtain ⟨hidle, rfl⟩ | ⟨hexec, hfetch⟩ | ⟨w, e, hexec, hfetch, hdecode, rfl⟩ |
    ⟨w, i, u, hexec, hfetch, hdecode, hrun, rfl⟩ := cycle_cases h
  · exact cycle_of_not_executes (s := t.atTick k) hidle
  · have hfetch' : fetch (s.atTick k) = .error (t.atTick k) := by rw [fetch_atTick, hfetch]; rfl
    exact cycle_of_fetch_error (s := s.atTick k) hexec hfetch'
  all_goals have hfetch' : fetch (s.atTick k) = .ok w := by rw [fetch_atTick, hfetch]; rfl
  · rw [cycle_of_illegal (s := s.atTick k) hexec hfetch' hdecode, raise_atTick]
    rfl
  · rw [← advance_atTick]
    exact cycle_of_decoded (s := s.atTick k) hexec hfetch' hdecode (exec_atTick k hrun)

/-- A cycle keeps the tick position: at the position it has, `atTick` changes nothing. -/
theorem cycle_keeps_tickPos (h : cycle s = .next t) : t.tickPos = s.tickPos := by
  have hsame : t = t.atTick s.tickPos :=
    Host.Outcome.next.inj (h.symm.trans (cycle_atTick s.tickPos h))
  rw [hsame]
  rfl

end AtTick

/-! ## Ten steps are one tick (R274; log 1) -/

section TenSteps

variable {s t : State}

/-- A run's first step, when it answers a next state. -/
theorem run_succ_of_next {M : Host.Core} {s t : M.State} (h : M.step s = .next t) (n : Nat) :
    M.run (n + 1) s = M.run n t := by
  rw [Host.Core.run, h]

theorem run_succ_of_step (h : step s = .next t) (n : Nat) :
    Host.Core.run Sys2Proof.core (n + 1) s = Host.Core.run Sys2Proof.core n t :=
  run_succ_of_next (M := Sys2Proof.core) h n

/-- Between ticks a core that does not execute stands still for any number of steps. -/
theorem run_of_not_executes (h0 : s.tickPos = 0) (hexec : executes s = false) :
    ∀ n, Host.Core.run Sys2Proof.core n s = .next s
  | 0 => rfl
  | n + 1 => (run_succ_of_step (step_of_not_executes h0 hexec) n).trans (run_of_not_executes h0 hexec n)

/-- The last `n + 1` cycles of a tick as a batch, and as steps from the tick position they start at: the
steps end where the tick ends. A fault in between leaves steps that do nothing. -/
theorem run_rest_of_tick :
    ∀ (n k : Nat) (s : State), s.tickPos = 0 → k + n = 9 → (k = 0 → executes s = true) →
      ∃ t, batch (n + 1) s = .next t ∧
        Host.Core.run Sys2Proof.core (n + 1) (s.atTick k) = .next (endTick t) := by
  intro n k s h0 hk hstart
  obtain ⟨u, hcycle⟩ := cycle_next s
  have hu : u.atTick 0 = u := by rw [← h0, ← cycle_keeps_tickPos hcycle]; rfl
  have hstep : step (s.atTick k) = .next (afterCycle (u.atTick k)) :=
    step_of_cycle (s := s.atTick k) hstart (cycle_atTick k hcycle)
  rw [run_succ_of_step hstep]
  by_cases hf : u.fault = none
  · rw [batch_of_noFault hcycle hf]
    cases n with
    | zero =>
      refine ⟨u, rfl, ?_⟩
      rw [endTick_of_noFault hf, afterCycle_of_last (t := u.atTick k) hf (Nat.le_of_eq hk.symm)]
      exact congrArg (fun v => Host.Outcome.next (timerDecrement v)) hu
    | succ n =>
      have hmore : afterCycle (u.atTick k) = u.atTick (k + 1) :=
        afterCycle_of_not_last (t := u.atTick k) hf (show k < 9 by omega)
      rw [hmore]
      exact run_rest_of_tick n (k + 1) u ((cycle_keeps_tickPos hcycle).trans h0) (by omega) nofun
  · obtain ⟨f, hf'⟩ := Option.ne_none_iff_exists'.1 hf
    refine ⟨u, batch_of_fault hcycle hf n, ?_⟩
    have hend : afterCycle (u.atTick k) = u := (afterCycle_of_fault (t := u.atTick k) hf).trans hu
    rw [hend, endTick_of_fault hf]
    exact run_of_not_executes ((cycle_keeps_tickPos hcycle).trans h0) (executes_of_fault hf') n

end TenSteps

/-- Settles O45: an idle core stands still in both; else the ten cycles are the rest of a tick at 0. -/
theorem tenStepsAreOneTick : Obligations.TenStepsAreOneTick := by
  intro s h0
  cases hexec : executes s with
  | false => exact (run_of_not_executes h0 hexec 10).trans (runTick_of_not_executes hexec).symm
  | true =>
    obtain ⟨t, hbatch, hrun⟩ := run_rest_of_tick 9 0 s h0 rfl fun _ => hexec
    have hs : s.atTick 0 = s := by rw [← h0]; rfl
    rw [hs] at hrun
    exact hrun.trans (runTick_of_batch hexec hbatch).symm

end Sys2Proof.Machine
end

section
/-! PROOFS of the family 70_reset_and_hazards: the bytes a host puts into memory, the host's calls that write
memory or a quirk, the boot sequence, and the program that spins on a jump to its own address. -/

namespace Sys2Proof.Machine

/-! ## Bytes put into memory (R302) -/

/-- Inside memory the bytes a host puts there are those BCD's byte-by-byte writes would leave. -/
theorem writeBytes_eq_pokeBytes :
    ∀ (bs : List Byte) (a : Nat) (s : State), a + bs.length ≤ 0x1000 →
      writeBytes s a bs = .ok { s with mem := pokeBytes s.mem a bs }
  | [], _, _, _ => rfl
  | b :: bs, a, s, hr => by
    rw [List.length_cons] at hr
    have ha : a ≤ 0xFFF := by omega
    have hpoke : pokeByte s.mem a b = s.mem.write a b := if_pos ha
    rw [writeBytes, memWrite_eq, if_pos ha, pokeBytes, hpoke]
    exact writeBytes_eq_pokeBytes bs (a + 1) { s with mem := s.mem.write a b } (by omega)

/-- Bytes put inside memory stand one after another, and every other byte stays (R302). -/
theorem byteAt_pokeBytes {s : State} (hm : MemoryOk s) {a : Nat} {bs : List Byte}
    (hr : a + bs.length ≤ 0x1000) :
    (∀ k (hk : k < bs.length), byteAt { s with mem := pokeBytes s.mem a bs } (a + k) = bs[k]) ∧
      (∀ j, j < a ∨ a + bs.length ≤ j →
        byteAt { s with mem := pokeBytes s.mem a bs } j = byteAt s j) := by
  obtain ⟨t, hrun, -, hbytes, hrest⟩ := writeBytes_ok bs a s hm hr
  obtain rfl := Except.ok.inj ((writeBytes_eq_pokeBytes bs a s hr).symm.trans hrun)
  exact ⟨hbytes, hrest⟩

/-! ## The calls that write memory or a quirk (R302, R303, R304) -/

section Calls

variable {s : State} (h0 : s.tickPos = 0)

include h0

theorem hostCall_loadProgram_of_fits {bytes : List Byte} (h : bytes.length ≤ 3584) :
    hostCall (.loadProgram bytes) s = .next { s with mem := pokeBytes s.mem 0x200 bytes } := by
  have hfits : ¬ maxImage < bytes.length := Nat.not_lt.2 h
  simp [hostCall, loadProgram, h0, hfits, progBase]

theorem hostCall_loadProgram_of_too_large {bytes : List Byte} (h : 3584 < bytes.length) :
    hostCall (.loadProgram bytes) s = .refused .imageTooLarge := by
  have hlarge : maxImage < bytes.length := h
  simp [hostCall, loadProgram, h0, hlarge]

theorem hostCall_store_inside {a : Nat} (h : a ≤ 0xFFF) (b : Byte) :
    hostCall (.store a b) s = .next { s with mem := s.mem.write a b } := by
  have hin : a ≤ maxAddress := h
  simp [hostCall, hostStore, h0, hin]

theorem hostCall_store_outside {a : Nat} (h : 0xFFF < a) (b : Byte) :
    hostCall (.store a b) s = .refused .addressOutOfRange := by
  have hout : ¬ a ≤ maxAddress := Nat.not_le.2 h
  simp [hostCall, hostStore, h0, hout]

theorem hostCall_setQuirk_incI (q : Bool) :
    hostCall (.setQuirk "inc_i" q) s = .next { s with qIncI := q } := by
  simp [hostCall, setQuirk, h0]

theorem hostCall_setQuirk_shiftVy (q : Bool) :
    hostCall (.setQuirk "shift_vy" q) s = .next { s with qShiftVy := q } := by
  simp [hostCall, setQuirk, h0]

theorem hostCall_setQuirk_unknown {name : String} (hinc : name ≠ "inc_i") (hshift : name ≠ "shift_vy")
    (q : Bool) : hostCall (.setQuirk name q) s = .refused .unknownQuirk := by
  simp [hostCall, setQuirk, h0, hinc, hshift]

/-- A stored byte goes to memory, and a store above memory leaves it (R303). -/
theorem afterCall_store (a : Nat) (b : Byte) :
    afterCall s (.store a b) = { s with mem := pokeByte s.mem a b } := by
  by_cases ha : a ≤ 0xFFF
  · have hpoke : pokeByte s.mem a b = s.mem.write a b := if_pos ha
    rw [afterCall, hostCall_store_inside h0 ha, hpoke]
  · have hpoke : pokeByte s.mem a b = s.mem := if_neg ha
    rw [afterCall, hostCall_store_outside h0 (Nat.not_le.1 ha), hpoke]

end Calls

/-- Settles O54: an image that fits is one `pokeBytes` from 0x200, inside memory. -/
theorem loadProgramWritesTheImage : Obligations.LoadProgramWritesTheImage := by
  refine fun bytes s h0 hm => ⟨fun hfits => ?_, hostCall_loadProgram_of_too_large h0⟩
  obtain ⟨hbytes, hrest⟩ := byteAt_pokeBytes hm (a := 0x200) (bs := bytes) (by omega)
  exact ⟨_, hostCall_loadProgram_of_fits h0 hfits, hbytes, hrest, rfl⟩

/-- Settles O55: a store inside memory is one write; the two names are told apart from each other and from
every other. -/
theorem storeAndSetQuirk : Obligations.StoreAndSetQuirk := by
  refine fun s a b name q h0 hm => ⟨fun ha => ?_, fun ha => hostCall_store_outside h0 ha b,
    hostCall_setQuirk_incI h0 q, hostCall_setQuirk_shiftVy h0 q,
    fun hinc hshift => hostCall_setQuirk_unknown h0 hinc hshift q⟩
  exact ⟨_, hostCall_store_inside h0 ha b, fun _ => Memory.read_write hm, rfl⟩

/-! ## The boot sequence (R306) -/

theorem runHost_append (ops ops' : List HostOp) (s : State) :
    runHost (ops ++ ops') s = runHost ops' (runHost ops s) := List.foldl_append

theorem runHost_cons_of_next {op : HostOp} {s t : State} (h : hostCall op s = .next t)
    (ops : List HostOp) : runHost (op :: ops) s = runHost ops t := by
  rw [runHost, List.foldl_cons, afterCall, h, runHost]

/-- Storing the font byte by byte puts it into memory and changes nothing else (R303, R306). -/
theorem runHost_storeFont :
    ∀ (font : List Byte) (a : Nat) (s : State), s.tickPos = 0 →
      runHost (storeFont a font) s = { s with mem := pokeBytes s.mem a font }
  | [], _, _, _ => rfl
  | b :: font, a, s, h0 => by
    rw [storeFont, runHost, List.foldl_cons, afterCall_store h0]
    exact runHost_storeFont font (a + 1) { s with mem := pokeByte s.mem a b } h0

/-- The first `reset()` keeps the memory it finds, whatever its open parameters (R301). -/
theorem hostReset_constructed_with_mem (m : Memory) :
    hostReset { State.constructed with mem := m } = { State.reset with mem := m } := by
  unfold hostReset
  cases Config.resetClearsRegs <;> cases Config.resetClearsKeyWait <;> rfl

/-- The core as constructed, with the font stored (R306). -/
def withFont (font : List Byte) : State :=
  { State.constructed with mem := pokeBytes State.constructed.mem 0 font }

/-- The core after the boot sequence (R306). -/
def bootedCore (font image : List Byte) (incI shiftVy : Bool) : State :=
  { State.reset with
    halted := false
    qIncI := incI
    qShiftVy := shiftVy
    mem := pokeBytes (withFont font).mem 0x200 image }

theorem runHost_bootOps (font : List Byte) {image : List Byte} (h : image.length ≤ 3584)
    (incI shiftVy : Bool) :
    runHost (bootOps font image incI shiftVy) State.constructed = bootedCore font image incI shiftVy := by
  have hfont : runHost (storeFont 0 font) State.constructed = withFont font :=
    runHost_storeFont font 0 State.constructed rfl
  have hload : hostCall (.loadProgram image) (withFont font)
      = .next { State.constructed with mem := pokeBytes (withFont font).mem 0x200 image } :=
    hostCall_loadProgram_of_fits rfl h
  rw [bootOps, runHost_append, hfont, runHost_cons_of_next hload,
    runHost_cons_of_next (hostCall_reset rfl), hostReset_constructed_with_mem,
    runHost_cons_of_next (hostCall_setQuirk_incI rfl incI),
    runHost_cons_of_next (hostCall_setQuirk_shiftVy rfl shiftVy),
    runHost_cons_of_next (hostCall_resume rfl)]
  rfl

/-- Settles O56: font and image are put into the empty memory one after the other, without overlap. -/
theorem bootLeavesARunningCore : Obligations.BootLeavesARunningCore := by
  intro font image incI shiftVy hfont himage
  have hempty : MemoryOk State.constructed := rfl
  obtain ⟨hglyphs, hblank⟩ := byteAt_pokeBytes hempty (a := 0) (bs := font) (by omega)
  have hm : MemoryOk (withFont font) := pokeBytes_wf hempty
  obtain ⟨hbytes, hrest⟩ := byteAt_pokeBytes hm (a := 0x200) (bs := image) (by omega)
  refine ⟨bootedCore font image incI shiftVy, runHost_bootOps font himage incI shiftVy, rfl, rfl,
    fun k hk => ?_, hbytes, fun a ha hout => ?_⟩
  · have hglyph := hglyphs k hk
    rw [Nat.zero_add] at hglyph
    exact (hrest k (.inl (by omega))).trans hglyph
  · exact (hrest a hout).trans (hblank a (.inr (by omega)))

/-! ## A jump to its own address (R315) -/

section Spinning

variable {s t : State} {w : Word}

/-- A fetch gives a word exactly at an aligned PC inside memory, the word of its two bytes (R66). -/
theorem fetch_eq_ok_iff :
    fetch s = .ok w ↔ s.pc.toNat % 2 = 0 ∧ s.pc.toNat ≤ 0xFFF ∧
      wordOfBytes (byteAt s s.pc.toNat) (byteAt s (s.pc.toNat + 1)) = w := by
  rw [fetch_eq]
  obtain heven | hodd := Nat.mod_two_eq_zero_or_one s.pc.toNat
  · by_cases hin : s.pc.toNat ≤ 0xFFF <;> simp [heven, hin]
  · simp [hodd]

/-- A core goes on spinning whatever its timers, tick position and `pc_set` become. -/
theorem finishedSpinning_of_frame (hs : FinishedSpinning s)
    (ht : t = { s with dt := t.dt, st := t.st, tickPos := t.tickPos, pcSet := t.pcSet }) :
    FinishedSpinning t := by
  obtain ⟨hexec, nnn, hpc, w, hfetch, hjump⟩ := hs
  have hword := fetch_eq_ok_iff.1 hfetch
  rw [ht]
  exact ⟨hexec, nnn, hpc, w, fetch_eq_ok_iff.2 hword, hjump⟩

/-- A jump to PC writes `pc_set` alone (R120, R121). -/
theorem exec_jump_to_pc {i : Instr} {nnn : Addr12} (hi : i = .jp nnn ∨ i = .sys nnn)
    (hpc : nnn.toNat = s.pc.toNat) : exec i s = .next { s with pcSet := true } := by
  have htarget : zext16 nnn = s.pc := BitVec.eq_of_toNat_eq ((zext16_toNat nnn).trans hpc)
  have hjump : exec i s = .next (setPc s (zext16 nnn)) := by
    obtain rfl | rfl := hi <;> rfl
  rw [hjump, htarget, setPc]

/-- The cycle leaves PC to an executor that wrote it (R25, R26). -/
theorem advance_of_pcSet (h : s.pcSet = true) : advance s = s := by simp [advance, h]

/-- A spinning core's step is the tick's bookkeeping alone. -/
theorem step_of_finishedSpinning (hs : FinishedSpinning s) :
    step s = .next (afterCycle { s with pcSet := true }) := by
  obtain ⟨hexec, nnn, hpc, w, hfetch, hjump⟩ := hs
  obtain ⟨i, hdecode, hi⟩ : ∃ i, decode w = .ok i ∧ (i = .jp nnn ∨ i = .sys nnn) := by
    obtain hjp | hsys := hjump
    · exact ⟨_, hjp, .inl rfl⟩
    · exact ⟨_, hsys, .inr rfl⟩
  have hrun : exec i { s with pcSet := false } = .next { s with pcSet := true } :=
    exec_jump_to_pc hi hpc
  rw [step_of_decoded hexec hfetch hdecode hrun, advance_of_pcSet rfl]

end Spinning

/-- Settles O60: the bookkeeping changes the timers and the tick position, which spinning does not read. -/
theorem spinningProgramStaysFinished : Obligations.SpinningProgramStaysFinished := by
  intro s hs
  have hframe := afterCycle_eq { s with pcSet := true }
  exact ⟨_, step_of_finishedSpinning hs, finishedSpinning_of_frame hs (by rw [hframe]), by rw [hframe]⟩

end Sys2Proof.Machine
end
